-- ==== Sys2Proof/Word.lean ====
section
/-! DEFINITION. The bit vectors of the block: the input byte, the symbol code and the ROM word. -/

namespace Sys2Proof

/-- Format `BYTE8`: one input byte (R80). -/
abbrev Byte := BitVec 8

/-- Format `SYM2`: the 2-bit code of a symbol (R86). -/
abbrev SymCode := BitVec 2

/-- Format `ROMW9`: one 9-bit word of the encoder ROM (R83). -/
abbrev RomWord := BitVec 9

end Sys2Proof
end

