-- ==== Sys2Proof/Config.lean ====
section
/-! DEFINITION. What is fixed when the block is built (R6), and what the environment drives (R34, R140). -/

namespace Sys2Proof

/-- The elaboration parameters of R6. `fClk` is informative: no rule reads it. -/
structure Config where
  /-- `DEPTH`, the FIFO's capacity in symbols -/
  depth     : Nat
  /-- `UNIT_TICKS`, one time unit in clock cycles -/
  unitTicks : Nat
  /-- `TIME_WIDTH`, the width in bits of `time` and `now` -/
  timeWidth : Nat
  /-- `N_PROD`, the number of producer ports -/
  nProd     : Nat
  /-- `F_CLK`, the clock frequency in Hz -/
  fClk      : Nat
  deriving DecidableEq, Repr

/-- The legal values of R6. For a configuration outside them the model has no machine (D25). -/
def Config.legal (c : Config) : Bool :=
  decide (1 ≤ c.depth) && decide (1 ≤ c.unitTicks) && decide (2 ≤ c.timeWidth)
    && decide (3 * c.unitTicks < 2 ^ (c.timeWidth - 1)) && decide (1 ≤ c.nProd) && decide (1 ≤ c.fClk)

/-- The configuration of `State.reset`: R6's reference `DEPTH`, and its default `TIME_WIDTH` and `N_PROD`.
R6 gives no number for `UNIT_TICKS` and `F_CLK`: DESIGN CHOICE, unsafe, log 3 (`UNIT_TICKS = 0.2 * F_CLK`). -/
def Config.reference : Config :=
  { depth := 100, unitTicks := 1, timeWidth := 32, nProd := 2, fClk := 5 }

/-- What one producer drives on its port in one cycle (R34). -/
structure PortIn where
  req   : Bool
  valid : Bool
  byte  : Byte
  last  : Bool
  deriving DecidableEq, Repr, Inhabited

/-- A port that requests nothing and offers nothing. -/
def PortIn.quiet : PortIn := { req := false, valid := false, byte := 0, last := false }

/-- The input signals of one cycle: the reset line and the ports, in the order of their index (R34). -/
structure Inputs where
  rst   : Bool
  ports : List PortIn
  deriving DecidableEq, Repr, Inhabited

/-- No reset and no producer active. -/
def Inputs.quiet : Inputs := { rst := false, ports := [] }

/-- What port `p` drives. A port the list does not reach is quiet (DESIGN CHOICE, safe, log 6). -/
def Inputs.port (i : Inputs) (p : Nat) : PortIn := i.ports.getD p PortIn.quiet

/-- The free draw of R13: what the environment drives in cycle `k` when State lists no input for it.
It has no body, so no proof can lean on a value of it (log 4). -/
opaque Config.envInputs : Nat → Inputs

end Sys2Proof
end

