-- ==== Sys2Proof/Syntax.lean ====
section
/-! DEFINITION. The instructions: one constructor for each row of spec/opcode_table.json (R91), and the symbols. -/

namespace Sys2Proof

/-- A symbol (R86): what the FIFO and the sequencer hold, and what the encoder produces. -/
inductive Sym where
  | dot
  | dash
  | eoc
  | space
  deriving DecidableEq, Repr

/-- The decodable codes. A letter's operand is bit 5 of the byte: `lower` is true for the lower-case byte (R82). -/
inductive Instr where
  | letterA (lower : Bool)
  | letterB (lower : Bool)
  | letterC (lower : Bool)
  | letterD (lower : Bool)
  | letterE (lower : Bool)
  | letterF (lower : Bool)
  | letterG (lower : Bool)
  | letterH (lower : Bool)
  | letterI (lower : Bool)
  | letterJ (lower : Bool)
  | letterK (lower : Bool)
  | letterL (lower : Bool)
  | letterM (lower : Bool)
  | letterN (lower : Bool)
  | letterO (lower : Bool)
  | letterP (lower : Bool)
  | letterQ (lower : Bool)
  | letterR (lower : Bool)
  | letterS (lower : Bool)
  | letterT (lower : Bool)
  | letterU (lower : Bool)
  | letterV (lower : Bool)
  | letterW (lower : Bool)
  | letterX (lower : Bool)
  | letterY (lower : Bool)
  | letterZ (lower : Bool)
  /-- row `SPACE_BYTE`: the byte 0x20 (R127) -/
  | spaceByte
  /-- row `IGNORE`: a byte that is no letter and no space (R128) -/
  | ignore (byte : Byte)
  /-- row `DOT` of format SYM2 (R181) -/
  | dot
  /-- row `DASH` of format SYM2 (R182) -/
  | dash
  /-- row `EOC` of format SYM2 (R183) -/
  | eoc
  /-- row `SPACE` of format SYM2 (R184) -/
  | space
  deriving DecidableEq, Repr

end Sys2Proof
end

