-- ==== Sys2Proof/WellFormed.lean ====
section
/-! DEFINITION. Which instructions and which ROM words are well formed: the byte classes of R81, the reserved words of R84. -/

namespace Sys2Proof

/-- The three classes of byte values (R81). -/
inductive ByteClass where
  | letter
  | space
  | ignore
  deriving DecidableEq, Repr

/-- The byte code map of R81, by its ranges. -/
def byteClass (b : Byte) : ByteClass :=
  let n := b.toNat
  if (0x41 ≤ n ∧ n ≤ 0x5A) ∨ (0x61 ≤ n ∧ n ≤ 0x7A) then .letter
  else if n = 0x20 then .space
  else .ignore

/-- An instruction is well formed when some code stands for it: only the default row `IGNORE` has an operand
that can be out of its range, a byte that another row matches (R91). -/
def Instr.wf : Instr → Bool
  | .ignore b => byteClass b == .ignore
  | .letterA _ | .letterB _ | .letterC _ | .letterD _ | .letterE _ | .letterF _ | .letterG _
  | .letterH _ | .letterI _ | .letterJ _ | .letterK _ | .letterL _ | .letterM _ | .letterN _
  | .letterO _ | .letterP _ | .letterQ _ | .letterR _ | .letterS _ | .letterT _ | .letterU _
  | .letterV _ | .letterW _ | .letterX _ | .letterY _ | .letterZ _
  | .spaceByte | .dot | .dash | .eoc | .space => true

/-- Field `KIND` of a ROM word, bits 1..0 (R83). -/
def RomWord.kind (w : RomWord) : BitVec 2 := w.extractLsb' 0 2

/-- Field `NEL` of a ROM word, bits 4..2: how many elements (R83). -/
def RomWord.nel (w : RomWord) : Nat := (w.extractLsb' 2 3).toNat

/-- Field `PAT` of a ROM word, bits 8..5: the element pattern (R83). -/
def RomWord.pat (w : RomWord) : BitVec 4 := w.extractLsb' 5 4

/-- The reserved ROM words, the four lines of R84 in their order. -/
def RomWord.reserved (w : RomWord) : Bool :=
  w.kind == 0b11
    || (w.kind == 0b01 && (w.nel == 0 || decide (4 < w.nel)))
    || ((w.kind == 0b00 || w.kind == 0b10) && (w.nel != 0 || w.pat != 0))
    || (List.range 4).any (fun i => w.pat.getLsbD i && decide (w.nel ≤ i))

end Sys2Proof
end

