-- ==== Sys2Proof/Decode.lean ====
section
/-! DEFINITION. The decoders of the two formats, the encoder, and the encoder ROM with its expansion (R80 to R92, R100). -/

namespace Sys2Proof

/-- Why bytes are not a code, or a ROM word has no expansion. No byte and no symbol code is illegal (R88, R86). -/
inductive DecodeError where
  /-- there is no byte to decode (the length of every code is one byte, R89) -/
  | noCode
  /-- a byte that should hold a 2-bit symbol code has a bit above bit 1 set (R86) -/
  | notASymbol
  /-- a reserved ROM word, which `expand` gives no meaning (R84, R85) -/
  | reservedRomWord
  deriving DecidableEq, Repr

/-- The two formats of codes the block decodes (R80, R86). -/
inductive Format where
  | byte8
  | sym2
  deriving DecidableEq, Repr

/-- A code of one of the two formats. -/
inductive Code where
  | byte8 (b : Byte)
  | sym2 (s : SymCode)
  deriving DecidableEq, Repr

/-! ## Symbols -/

/-- The 2-bit code of a symbol (R86). -/
def Sym.code : Sym → SymCode
  | .dot   => 0b00
  | .dash  => 0b01
  | .eoc   => 0b10
  | .space => 0b11

/-- The decoder of format SYM2 (R86): all four codes are assigned. -/
def decodeSym2 (s : SymCode) : Instr :=
  if s = 0b00 then .dot
  else if s = 0b01 then .dash
  else if s = 0b10 then .eoc
  else .space

/-! ## Bytes -/

/-- One row of format BYTE8 of the opcode table: `mask`, `match` and the instruction it stands for (R91). -/
structure ByteRow where
  mnemonic : String
  mask     : Byte
  pattern  : Byte
  make     : Byte → Instr

/-- Bit 5 of a letter's byte: set for the lower-case form (R82). -/
def isLower (b : Byte) : Bool := b.getLsbD 5

/-- A LETTER row: mask 0xDF, so that it selects exactly the two bytes of R82 (R91). -/
def letterRow (mnemonic : String) (upper : Byte) (make : Bool → Instr) : ByteRow :=
  { mnemonic := mnemonic, mask := 0xDF, pattern := upper, make := fun b => make (isLower b) }

/-- The rows that are tried first: the 26 LETTER rows and SPACE_BYTE (R91). -/
def byteRows : List ByteRow :=
  [ letterRow "A" 0x41 .letterA, letterRow "B" 0x42 .letterB, letterRow "C" 0x43 .letterC,
    letterRow "D" 0x44 .letterD, letterRow "E" 0x45 .letterE, letterRow "F" 0x46 .letterF,
    letterRow "G" 0x47 .letterG, letterRow "H" 0x48 .letterH, letterRow "I" 0x49 .letterI,
    letterRow "J" 0x4A .letterJ, letterRow "K" 0x4B .letterK, letterRow "L" 0x4C .letterL,
    letterRow "M" 0x4D .letterM, letterRow "N" 0x4E .letterN, letterRow "O" 0x4F .letterO,
    letterRow "P" 0x50 .letterP, letterRow "Q" 0x51 .letterQ, letterRow "R" 0x52 .letterR,
    letterRow "S" 0x53 .letterS, letterRow "T" 0x54 .letterT, letterRow "U" 0x55 .letterU,
    letterRow "V" 0x56 .letterV, letterRow "W" 0x57 .letterW, letterRow "X" 0x58 .letterX,
    letterRow "Y" 0x59 .letterY, letterRow "Z" 0x5A .letterZ,
    { mnemonic := "SPACE_BYTE", mask := 0xFF, pattern := 0x20, make := fun _ => .spaceByte } ]

/-- Whether a row matches a byte. -/
def ByteRow.hits (r : ByteRow) (b : Byte) : Bool := b &&& r.mask == r.pattern

/-- The decoder of format BYTE8: the first row that matches, else the default row `IGNORE` (R91). -/
def decodeByte8 (b : Byte) : Instr :=
  match byteRows.find? (·.hits b) with
  | some r => r.make b
  | none   => .ignore b

/-- The decoder on a code of either format. It is total: no code is illegal (R88). -/
def decode : Code → Instr
  | .byte8 b => decodeByte8 b
  | .sym2 s  => decodeSym2 s

/-- The decoder on bytes: the instruction and the bytes after it. A BYTE8 code is one byte (R89); a SYM2 code is
the low two bits of one byte whose other bits are zero. -/
def decodeBytes : Format → List Byte → Except DecodeError (Instr × List Byte)
  | _, [] => .error .noCode
  | .byte8, b :: rest => .ok (decodeByte8 b, rest)
  | .sym2, b :: rest =>
    if b.extractLsb' 2 6 = 0 then .ok (decodeSym2 (b.extractLsb' 0 2), rest) else .error .notASymbol

/-! ## The encoder of the model: from an instruction back to its code -/

/-- The byte of a letter in the case asked for (R82). -/
def letterByte (upper : Byte) (lower : Bool) : Byte := if lower then upper ||| 0x20 else upper

/-- The code of an instruction, from the `match` column of the opcode table. -/
def encode : Instr → Code
  | .letterA l => .byte8 (letterByte 0x41 l)
  | .letterB l => .byte8 (letterByte 0x42 l)
  | .letterC l => .byte8 (letterByte 0x43 l)
  | .letterD l => .byte8 (letterByte 0x44 l)
  | .letterE l => .byte8 (letterByte 0x45 l)
  | .letterF l => .byte8 (letterByte 0x46 l)
  | .letterG l => .byte8 (letterByte 0x47 l)
  | .letterH l => .byte8 (letterByte 0x48 l)
  | .letterI l => .byte8 (letterByte 0x49 l)
  | .letterJ l => .byte8 (letterByte 0x4A l)
  | .letterK l => .byte8 (letterByte 0x4B l)
  | .letterL l => .byte8 (letterByte 0x4C l)
  | .letterM l => .byte8 (letterByte 0x4D l)
  | .letterN l => .byte8 (letterByte 0x4E l)
  | .letterO l => .byte8 (letterByte 0x4F l)
  | .letterP l => .byte8 (letterByte 0x50 l)
  | .letterQ l => .byte8 (letterByte 0x51 l)
  | .letterR l => .byte8 (letterByte 0x52 l)
  | .letterS l => .byte8 (letterByte 0x53 l)
  | .letterT l => .byte8 (letterByte 0x54 l)
  | .letterU l => .byte8 (letterByte 0x55 l)
  | .letterV l => .byte8 (letterByte 0x56 l)
  | .letterW l => .byte8 (letterByte 0x57 l)
  | .letterX l => .byte8 (letterByte 0x58 l)
  | .letterY l => .byte8 (letterByte 0x59 l)
  | .letterZ l => .byte8 (letterByte 0x5A l)
  | .spaceByte => .byte8 0x20
  | .ignore b  => .byte8 b
  | .dot       => .sym2 0b00
  | .dash      => .sym2 0b01
  | .eoc       => .sym2 0b10
  | .space     => .sym2 0b11

/-- The format of a code. -/
def Code.format : Code → Format
  | .byte8 _ => .byte8
  | .sym2 _  => .sym2

/-- A code as the one byte that `decodeBytes` reads. -/
def Code.toByte : Code → Byte
  | .byte8 b => b
  | .sym2 s  => s.zeroExtend 8

/-- The format of an instruction. -/
def Instr.format (i : Instr) : Format := (encode i).format

/-- An instruction as bytes. -/
def encodeBytes (i : Instr) : List Byte := [(encode i).toByte]

/-! ## The encoder ROM (R83 to R87) and `ENC` (R100) -/

/-- The ROM words of the letters A to Z, the `word` column of R87's table. -/
def letterRomWords : List RomWord :=
  [ 0x049, 0x031, 0x0B1, 0x02D, 0x005, 0x091, 0x06D, 0x011, 0x009, 0x1D1, 0x0AD, 0x051, 0x069,
    0x029, 0x0ED, 0x0D1, 0x171, 0x04D, 0x00D, 0x025, 0x08D, 0x111, 0x0CD, 0x131, 0x1B1, 0x071 ]

/-- `MemRead(ROM, b)` (R12, R52): the word at index `b`. The two cases of a letter hold the same word (R82), the
space holds 0x002, and every byte that R87 does not list holds 0x000. -/
def memRead (b : Byte) : RomWord :=
  if (0x41 : Byte) ≤ b ∧ b ≤ 0x5A then letterRomWords.getD (b.toNat - 0x41) 0
  else if (0x61 : Byte) ≤ b ∧ b ≤ 0x7A then letterRomWords.getD (b.toNat - 0x61) 0
  else if b = 0x20 then 0x002
  else 0x000

/-- Element `i` of a ROM word: bit `5 + i`, 0 for Dot and 1 for Dash (R83, R85). -/
def RomWord.elem (w : RomWord) (i : Nat) : Sym := if w.getLsbD (5 + i) then .dash else .dot

/-- The expansion of a ROM word into symbols. It has no meaning for a reserved word (R84, R85). -/
def expand (w : RomWord) : Except DecodeError (List Sym) :=
  if w.reserved then .error .reservedRomWord
  else if w.kind = 0b01 then .ok ((List.range w.nel).map w.elem ++ [.eoc])
  else if w.kind = 0b10 then .ok [.space]
  else .ok []

/-- `ENC(b) = expand(MemRead(ROM, b))` (R100). The ROM holds no reserved word (R84), so the second case never
applies (`Laws.expand_memRead`). -/
def enc (b : Byte) : List Sym :=
  match expand (memRead b) with
  | .ok syms => syms
  | .error _ => []

/-! ## The opcode table's numbering, for the host -/

/-- Which format a word of the opcode table is read in, from its bits alone. The rows of SYM2 have two bits, those
of BYTE8 eight. In eight bits the words 0 to 3 stand for both a symbol and an ignored byte: there the row with fixed
bits is taken before the default row `IGNORE`, whose mask is 0 (DESIGN CHOICE, log 9). -/
def tableFormat (nbits w : Nat) : Format :=
  if nbits = 2 ∨ (nbits = 8 ∧ w < 4) then .sym2 else .byte8

/-- The one byte that holds a table word. -/
def tableByte (w : Nat) : Option Byte := if w < 256 then some (BitVec.ofNat 8 w) else none

/-- The instruction the decoder reads from a word of the opcode table (log 9). -/
def decodeTableWord (nbits w : Nat) : Option Instr :=
  match tableByte w with
  | none => none
  | some b =>
    match decodeBytes (tableFormat nbits w) [b] with
    | .ok (i, _) => some i
    | .error _   => none

end Sys2Proof
end

