-- ==== Sys2Proof/Machine/State.lean ====
section
/-! DEFINITION. The state of the block (R20 to R30), why a step can stop, and the state after reset (R21, R230). -/

namespace Sys2Proof.Machine

/-- The Flasher's control state (R24). Code 0b11 is not representable. -/
inductive FState where
  /-- the queue was found empty: waiting in the blocking dequeue -/
  | idle
  /-- the first phase of the current symbol -/
  | hold
  /-- the trailing one-unit gap of the current symbol -/
  | gap
  deriving DecidableEq, Repr

/-- Why the machine stops with a fault: never. "The block raises no synchronous exception, records no cause code, and
has no error output or error state" (R200). No one raises it, so it is safe. -/
inductive Fault
  deriving DecidableEq, Repr

/-- Why a step is refused. -/
inductive Refusal where
  /-- An instruction without a meaning in the model. No arm of `exec` raises it: every row has its meaning. Safe. -/
  | notModelled (mnemonic : String)
  /-- The step raises it when the parameters break the legal values of R6: "the model has no machine for it" (D25). Safe. -/
  | illegalConfig
  /-- Accepting a byte raises it if its ROM word is reserved, which must be refused (R84). The ROM holds none, so it is
  never raised (`Laws.expand_memRead`). Safe. -/
  | reservedRomWord
  deriving DecidableEq, Repr

/-- The complete state. The nine elements of R21 are `time` to `seqLast`. `cfg` holds the fixed parameters of R6
(log 2). `inputs` and `cycle` are the model's own: the environment's draw (log 4, log 5). -/
@[ext]
structure State where
  /-- the elaboration parameters (R6), the same in every step -/
  cfg     : Config
  /-- `time`, the timer: a `TIME_WIDTH`-bit number (R22, log 7) -/
  time    : Nat
  /-- `now`, the Timing Cursor: a `TIME_WIDTH`-bit number (R23, log 7) -/
  now     : Nat
  /-- the Flasher's control state (R24) -/
  fstate  : FState
  /-- the output pin register: true is high (R25) -/
  pin     : Bool
  /-- `Q`, the FIFO's contents, oldest first (R26) -/
  q       : List Sym
  /-- the lock register: the producer that holds the lock (R27, log 8) -/
  owner   : Option Nat
  /-- `rr_last`, the producer most recently granted (R28, log 8) -/
  rrLast  : Nat
  /-- the symbols of the last accepted byte that are not pushed yet (R29) -/
  seq     : List Sym
  /-- `seq_last`, the `in_last` value of that byte (R30) -/
  seqLast : Bool
  /-- the inputs of this cycle and of later ones, as far as they are listed (log 4) -/
  inputs  : List Inputs
  /-- the cycle index, which selects the free draw beyond the list (R10, R13, log 4) -/
  cycle   : Nat
  deriving DecidableEq, Repr

/-- `ResetState` of R230 for a configuration, with no input listed, at cycle 0. -/
def State.resetOf (c : Config) : State :=
  { cfg := c, time := 0, now := 0, fstate := .idle, pin := false, q := [], owner := none,
    rrLast := c.nProd - 1, seq := [], seqLast := false, inputs := [], cycle := 0 }

/-- The machine right after reset (R230, R232), in the reference configuration (log 3, log 5). -/
def State.reset : State := State.resetOf Config.reference

end Sys2Proof.Machine
end

