-- ==== Sys2Proof/Machine/Flags.lean ====
section
/-! DEFINITION. The derived conditions of R33, and the deadline test of R174. -/

namespace Sys2Proof.Machine

/-- A number reduced to `w` bits: `+` on `time` and `now` is modulo `2^TIME_WIDTH` (R9). -/
def wrap (w n : Nat) : Nat := n % 2 ^ w

/-- `(a - b) mod 2^w` (R9). -/
def subMod (w a b : Nat) : Nat := (a % 2 ^ w + (2 ^ w - b % 2 ^ w)) % 2 ^ w

/-- The deadline test `reached(time, now)` for timers of `w` bits (R174). -/
def reached (w time now : Nat) : Bool := decide (subMod w time now < 2 ^ (w - 1))

/-- `q_empty` (R33). -/
def State.qEmpty (s : State) : Bool := s.q.length == 0

/-- `q_full` (R33): full at the start of the cycle (R66). -/
def State.qFull (s : State) : Bool := s.q.length == s.cfg.depth

/-- There is room for a push: R147's `len(Q) < DEPTH`, the test R66 uses. -/
def State.hasRoom (s : State) : Bool := decide (s.q.length < s.cfg.depth)

/-- `seq_busy` (R33). -/
def State.seqBusy (s : State) : Bool := s.seq != []

/-- `lock_free` (R33). -/
def State.lockFree (s : State) : Bool := s.owner == none

/-- `dl` (R33): the deadline is reached. -/
def State.dl (s : State) : Bool := reached s.cfg.timeWidth s.time s.now

end Sys2Proof.Machine
end

