-- ==== Sys2Proof/Machine/Operands.lean ====
section
/-! DEFINITION. What an instruction's code gives the machine (R92, R171 to R173), the inputs of the cycle (R34), and
the outputs of the cycle (R35). -/

namespace Sys2Proof

/-- The pin level of the first phase: `is_pulse(s) = (s[1] = 0)` (R92, R173). -/
def Sym.isPulse (x : Sym) : Bool := !x.code.getLsbD 1

/-- The first phase in units of `UNIT_TICKS`: `1 + 2 * s[0]` (R92). -/
def Sym.units (x : Sym) : Nat := if x.code.getLsbD 0 then 3 else 1

/-- `d1(s) = UNIT_TICKS * (1 + 2 * s[0])`, the first-phase duration in cycles (R171). -/
def d1 (c : Config) (x : Sym) : Nat := c.unitTicks * x.units

/-- `d2 = 1 * UNIT_TICKS`, the second-phase duration in cycles (R172). -/
def d2 (c : Config) : Nat := c.unitTicks

namespace Machine

/-- The inputs of this cycle: the listed ones, else the environment's free draw (R13, log 4). -/
def State.input (s : State) : Inputs := s.inputs.headD (Config.envInputs s.cycle)

/-- What port `p` drives in this cycle. -/
def State.port (s : State) (p : Nat) : PortIn := s.input.port p

/-- The output `gnt[p]` (R35). -/
def State.gnt (s : State) (p : Nat) : Bool := !s.input.rst && s.owner == some p

/-- The output `in_ready[p]` (R35). -/
def State.inReady (s : State) (p : Nat) : Bool := !s.input.rst && s.owner == some p && s.seq == []

/-- A byte transfers on port `p` in this cycle (R142). -/
def State.transfers (s : State) (p : Nat) : Bool := (s.port p).valid && s.inReady p

/-- The 2-bit code of the Flasher's state (R24). -/
def FState.code : FState → BitVec 2
  | .idle => 0b00
  | .hold => 0b01
  | .gap  => 0b10

/-- The outputs of one cycle (R34). -/
structure Outputs where
  gnt     : List Bool
  inReady : List Bool
  pin     : Bool
  qLevel  : Nat
  fState  : BitVec 2
  deriving DecidableEq, Repr

/-- The output functions of R35. The inputs of the cycle are in the state, so the outputs are a function of it. -/
def State.outputs (s : State) : Outputs :=
  { gnt := (List.range s.cfg.nProd).map s.gnt
    inReady := (List.range s.cfg.nProd).map s.inReady
    pin := s.pin
    qLevel := s.q.length
    fState := s.fstate.code }

/-- The width in bits of `q_level`: `ceil(log2(DEPTH + 1))` (R34). -/
def qLevelWidth (c : Config) : Nat := Nat.clog 2 (c.depth + 1)

/-- The Flasher takes a symbol in this cycle if there is one: it is in IDLE, or in GAP at its deadline (R175, R178). -/
def State.mayPop (s : State) : Bool :=
  match s.fstate with
  | .idle => true
  | .hold => false
  | .gap  => s.dl

/-- Where the deadlines of a symbol popped in this cycle count from: `time` from IDLE, the rebase (R175), and the old
deadline `now` from GAP (R178). -/
def State.base (s : State) : Nat :=
  match s.fstate with
  | .idle => s.time
  | .hold => s.now
  | .gap  => s.now

end Machine
end Sys2Proof
end

