-- ==== Sys2Proof/Machine/Ops.lean ====
section
/-! DEFINITION. The operations that the meanings and the two units share: accepting a byte, starting a symbol, the lock,
the FIFO, the timer, and reset. The block takes no exception and returns from none (R200, R206): its one discontinuity
is reset, `State.takeReset`. -/

namespace Sys2Proof.Machine

/-- The outcome type of the model. -/
abbrev Result := Host.Outcome State Fault Refusal

/-- Go on with the next state, or stop as the first action stopped. -/
def thenDo (r : Result) (f : State → Result) : Result :=
  match r with
  | .next s    => f s
  | .fault x   => .fault x
  | .refused x => .refused x

/-! ## The lock -/

/-- The first of the producers `last + 1`, `last + 2`, …, `last + k` (modulo `n`) that requests, the search order of
R144: `start` counts from 1. -/
def rrSearch (n last : Nat) (req : Nat → Bool) : Nat → Nat → Option Nat
  | 0, _ => none
  | k + 1, start =>
    let p := (last + start) % n
    if req p then some p else rrSearch n last req k (start + 1)

/-- `rr_pick(req, last)` over `n` producers (R144): none when no producer requests. -/
def rrPick (n last : Nat) (req : Nat → Bool) : Option Nat := rrSearch n last req n 1

/-- The producer granted if the lock is free in this cycle (R143). -/
def State.grantee (s : State) : Option Nat := rrPick s.cfg.nProd s.rrLast (fun p => (s.port p).req)

/-- LOCK_GRANT: `owner <- g; rr_last <- g` (R143). -/
def State.grantTo (s : State) (g : Nat) : State := { s with owner := some g, rrLast := g }

/-- The release of the lock (R146, R147). -/
def State.release (s : State) : State := { s with owner := none }

/-! ## The sequencer -/

/-- The write of BYTE_ACCEPT: `seq <- s; seq_last <- in_last[p]` (R145). -/
def State.loadSeq (s : State) (syms : List Sym) (last : Bool) : State := { s with seq := syms, seqLast := last }

/-- The transfer of one byte from the lock's holder: encode it, and load its symbols or, for a final byte without
symbols, release the lock (R145, R146). A byte offered where the port is not ready is ignored (R149, log 12). -/
def acceptByte (b : Byte) (s : State) : Result :=
  match s.owner with
  | none => .next s
  | some p =>
    if s.inReady p then
      match expand (memRead b) with
      | .error _ => .refused .reservedRomWord
      | .ok syms =>
        if syms = [] ∧ (s.port p).last = true then .next s.release
        else .next (s.loadSeq syms (s.port p).last)
    else .next s

/-- The symbol that ENQ pushes in this cycle: the head of `seq`, if the lock is held and the queue has room at the
start of the cycle (R147, R66). -/
def State.enqSym (s : State) : Option Sym :=
  match s.owner, s.seq with
  | some _, x :: _ => if s.hasRoom then some x else none
  | _, _ => none

/-- The sequencer's part of ENQ: drop the pushed symbol, and release the lock after the last one (R147). -/
def State.dropSeq (s : State) : State :=
  { s with seq := s.seq.tail
           owner := if s.seq.tail = [] ∧ s.seqLast = true then none else s.owner }

/-! ## The FIFO -/

/-- The push of FIFO_UPDATE: append a symbol at the tail, after the pop (R150). -/
def State.pushSym (s : State) (push : Option Sym) : State :=
  match push with
  | none   => s
  | some x => { s with q := s.q ++ [x] }

/-! ## The Flasher -/

/-- The pop of a symbol and the start of its first phase: `now <- base + d1(s); pin <- is_pulse(s); fstate <- HOLD`
(R175, R178). -/
def State.startSym (s : State) (x : Sym) : State :=
  { s with q := s.q.tail
           now := wrap s.cfg.timeWidth (s.base + d1 s.cfg x)
           pin := x.isPulse
           fstate := .hold }

/-- Execute symbol `x`: it is popped and started when it is at the head of the queue and the Flasher takes a symbol in
this cycle. Otherwise it is not executed, and nothing changes (R176, R180, log 12). -/
def popSym (x : Sym) (s : State) : Result :=
  if s.mayPop = true ∧ s.q.head? = some x then .next (s.startSym x) else .next s

/-- HOLD_END: `pin <- 0; now <- now + d2; fstate <- GAP` (R177). -/
def State.endHold (s : State) : State :=
  { s with pin := false
           now := wrap s.cfg.timeWidth (s.now + d2 s.cfg)
           fstate := .gap }

/-- TRY_DEQ_MISS: `fstate <- IDLE` (R179). -/
def State.goIdle (s : State) : State := { s with fstate := .idle }

/-! ## The timer, the inputs, and reset -/

/-- The environment moves to the next cycle: this cycle's inputs are spent (R10, log 4). -/
def State.nextInputs (s : State) : State := { s with inputs := s.inputs.tail, cycle := s.cycle + 1 }

/-- The timer counts: `time <- (time + 1) mod 2^TIME_WIDTH` (R208). -/
def State.tick (s : State) : State := { s with time := wrap s.cfg.timeWidth (s.time + 1) }

/-- Reset: every element of R21 at its reset value (R230). The parameters and the environment are not the block's. -/
def State.takeReset (s : State) : State :=
  { State.resetOf s.cfg with inputs := s.inputs, cycle := s.cycle }

end Sys2Proof.Machine
end

