-- ==== Sys2Proof/Machine/Bytes.lean ====
section
/-! DEFINITION. The meanings of the space byte (R127) and of the ignored bytes (R128). -/

namespace Sys2Proof.Machine

/-- The space byte: the sequencer is loaded with one SPACE and no EOC (R127). -/
def execSpaceByte (s : State) : Result := acceptByte 0x20 s

/-- An ignored byte: it is accepted and yields no symbol, and a final one releases the lock (R128, R146). -/
def execIgnore (byte : Byte) (s : State) : Result := acceptByte byte s

end Sys2Proof.Machine
end

