-- ==== Sys2Proof/Machine/Letters.lean ====
section
/-! DEFINITION. The meanings of the 26 letters (R101 to R126): the byte of the letter, in its case, is accepted, and the
sequencer is loaded with the letter's expansion. -/

namespace Sys2Proof.Machine

/-- Letter `A`, `.-` (R101). -/
def execLetterA (lower : Bool) (s : State) : Result := acceptByte (letterByte 0x41 lower) s

/-- Letter `B`, `-...` (R102). -/
def execLetterB (lower : Bool) (s : State) : Result := acceptByte (letterByte 0x42 lower) s

/-- Letter `C`, `-.-.` (R103). -/
def execLetterC (lower : Bool) (s : State) : Result := acceptByte (letterByte 0x43 lower) s

/-- Letter `D`, `-..` (R104). -/
def execLetterD (lower : Bool) (s : State) : Result := acceptByte (letterByte 0x44 lower) s

/-- Letter `E`, `.` (R105). -/
def execLetterE (lower : Bool) (s : State) : Result := acceptByte (letterByte 0x45 lower) s

/-- Letter `F`, `..-.` (R106). -/
def execLetterF (lower : Bool) (s : State) : Result := acceptByte (letterByte 0x46 lower) s

/-- Letter `G`, `--.` (R107). -/
def execLetterG (lower : Bool) (s : State) : Result := acceptByte (letterByte 0x47 lower) s

/-- Letter `H`, `....` (R108). -/
def execLetterH (lower : Bool) (s : State) : Result := acceptByte (letterByte 0x48 lower) s

/-- Letter `I`, `..` (R109). -/
def execLetterI (lower : Bool) (s : State) : Result := acceptByte (letterByte 0x49 lower) s

/-- Letter `J`, `.---` (R110). -/
def execLetterJ (lower : Bool) (s : State) : Result := acceptByte (letterByte 0x4A lower) s

/-- Letter `K`, `-.-` (R111). -/
def execLetterK (lower : Bool) (s : State) : Result := acceptByte (letterByte 0x4B lower) s

/-- Letter `L`, `.-..` (R112). -/
def execLetterL (lower : Bool) (s : State) : Result := acceptByte (letterByte 0x4C lower) s

/-- Letter `M`, `--` (R113). -/
def execLetterM (lower : Bool) (s : State) : Result := acceptByte (letterByte 0x4D lower) s

/-- Letter `N`, `-.` (R114). -/
def execLetterN (lower : Bool) (s : State) : Result := acceptByte (letterByte 0x4E lower) s

/-- Letter `O`, `---` (R115). -/
def execLetterO (lower : Bool) (s : State) : Result := acceptByte (letterByte 0x4F lower) s

/-- Letter `P`, `.--.` (R116). -/
def execLetterP (lower : Bool) (s : State) : Result := acceptByte (letterByte 0x50 lower) s

/-- Letter `Q`, `--.-` (R117). -/
def execLetterQ (lower : Bool) (s : State) : Result := acceptByte (letterByte 0x51 lower) s

/-- Letter `R`, `.-.` (R118). -/
def execLetterR (lower : Bool) (s : State) : Result := acceptByte (letterByte 0x52 lower) s

/-- Letter `S`, `...` (R119). -/
def execLetterS (lower : Bool) (s : State) : Result := acceptByte (letterByte 0x53 lower) s

/-- Letter `T`, `-` (R120). -/
def execLetterT (lower : Bool) (s : State) : Result := acceptByte (letterByte 0x54 lower) s

/-- Letter `U`, `..-` (R121). -/
def execLetterU (lower : Bool) (s : State) : Result := acceptByte (letterByte 0x55 lower) s

/-- Letter `V`, `...-` (R122). -/
def execLetterV (lower : Bool) (s : State) : Result := acceptByte (letterByte 0x56 lower) s

/-- Letter `W`, `.--` (R123). -/
def execLetterW (lower : Bool) (s : State) : Result := acceptByte (letterByte 0x57 lower) s

/-- Letter `X`, `-..-` (R124). -/
def execLetterX (lower : Bool) (s : State) : Result := acceptByte (letterByte 0x58 lower) s

/-- Letter `Y`, `-.--` (R125). -/
def execLetterY (lower : Bool) (s : State) : Result := acceptByte (letterByte 0x59 lower) s

/-- Letter `Z`, `--..` (R126). -/
def execLetterZ (lower : Bool) (s : State) : Result := acceptByte (letterByte 0x5A lower) s

end Sys2Proof.Machine
end

