-- ==== Sys2Proof/Machine/Symbols.lean ====
section
/-! DEFINITION. The meanings of the four symbols in their pop cycle (R181 to R184). The later cycles of a symbol are the
Flasher's held phases, which the state carries and `flasherStep` ends (R177 to R180). -/

namespace Sys2Proof.Machine

/-- DOT: one unit with the pin high (R181). -/
def execDot (s : State) : Result := popSym .dot s

/-- DASH: three units with the pin high (R182). -/
def execDash (s : State) : Result := popSym .dash s

/-- EOC: one unit with the pin low (R183). -/
def execEoc (s : State) : Result := popSym .eoc s

/-- SPACE: three units with the pin low (R184). -/
def execSpace (s : State) : Result := popSym .space s

end Sys2Proof.Machine
end

