-- ==== Sys2Proof/Machine/Dispatch.lean ====
section
/-! DEFINITION. One arm for each instruction. -/

namespace Sys2Proof.Machine

def exec (i : Instr) (s : State) : Host.Outcome State Fault Refusal :=
  match i with
  | .letterA lower => Sys2Proof.Machine.execLetterA lower s
  | .letterB lower => Sys2Proof.Machine.execLetterB lower s
  | .letterC lower => Sys2Proof.Machine.execLetterC lower s
  | .letterD lower => Sys2Proof.Machine.execLetterD lower s
  | .letterE lower => Sys2Proof.Machine.execLetterE lower s
  | .letterF lower => Sys2Proof.Machine.execLetterF lower s
  | .letterG lower => Sys2Proof.Machine.execLetterG lower s
  | .letterH lower => Sys2Proof.Machine.execLetterH lower s
  | .letterI lower => Sys2Proof.Machine.execLetterI lower s
  | .letterJ lower => Sys2Proof.Machine.execLetterJ lower s
  | .letterK lower => Sys2Proof.Machine.execLetterK lower s
  | .letterL lower => Sys2Proof.Machine.execLetterL lower s
  | .letterM lower => Sys2Proof.Machine.execLetterM lower s
  | .letterN lower => Sys2Proof.Machine.execLetterN lower s
  | .letterO lower => Sys2Proof.Machine.execLetterO lower s
  | .letterP lower => Sys2Proof.Machine.execLetterP lower s
  | .letterQ lower => Sys2Proof.Machine.execLetterQ lower s
  | .letterR lower => Sys2Proof.Machine.execLetterR lower s
  | .letterS lower => Sys2Proof.Machine.execLetterS lower s
  | .letterT lower => Sys2Proof.Machine.execLetterT lower s
  | .letterU lower => Sys2Proof.Machine.execLetterU lower s
  | .letterV lower => Sys2Proof.Machine.execLetterV lower s
  | .letterW lower => Sys2Proof.Machine.execLetterW lower s
  | .letterX lower => Sys2Proof.Machine.execLetterX lower s
  | .letterY lower => Sys2Proof.Machine.execLetterY lower s
  | .letterZ lower => Sys2Proof.Machine.execLetterZ lower s
  | .spaceByte => Sys2Proof.Machine.execSpaceByte s
  | .ignore byte => Sys2Proof.Machine.execIgnore byte s
  | .dot => Sys2Proof.Machine.execDot s
  | .dash => Sys2Proof.Machine.execDash s
  | .eoc => Sys2Proof.Machine.execEoc s
  | .space => Sys2Proof.Machine.execSpace s

end Sys2Proof.Machine
end

