-- ==== Sys2Proof/Machine/Units.lean ====
section
/-! DEFINITION. The two units of the block and their composition into one clock cycle (R37), and where an instruction is
placed for the next step to run it. -/

namespace Sys2Proof.Machine

/-- The ingest unit's cycle (R141): grant the free lock, execute the byte that the holder transfers, or take the pushed
symbol out of the sequencer. The push itself is `pushSym`, after the Flasher's pop. -/
def ingestStep (s : State) : Result :=
  match s.owner with
  | none =>
    match s.grantee with
    | none   => .next s
    | some g => .next (s.grantTo g)
  | some p =>
    match s.seq with
    | [] => if s.transfers p then exec (decodeByte8 (s.port p).byte) s else .next s
    | _ :: _ => if s.hasRoom then .next s.dropSeq else .next s

/-- The Flasher's cycle (R170): execute the symbol it pops, end the first phase, go to IDLE, or wait. -/
def flasherStep (s : State) : Result :=
  match s.fstate with
  | .idle =>
    match s.q with
    | []     => .next s
    | x :: _ => exec (decodeSym2 x.code) s
  | .hold => if s.dl then .next s.endHold else .next s
  | .gap =>
    if s.dl then
      match s.q with
      | []     => .next s.goIdle
      | x :: _ => exec (decodeSym2 x.code) s
    else .next s

/-- One clock cycle (R37). The ingest unit does not touch what the Flasher reads, so the Flasher acts on the
start-of-cycle `Q`; the push was decided on the start-of-cycle state and is appended after the pop (R150, R65, R66). -/
def runCycle (s : State) : Result :=
  if s.cfg.legal then
    if s.input.rst then .next s.takeReset.nextInputs
    else thenDo (ingestStep s) fun s1 =>
      thenDo (flasherStep s1) fun s2 =>
        .next ((s2.pushSym s.enqSym).tick.nextInputs)
  else .refused .illegalConfig

/-! ## Placing an instruction where the next step fetches it (log 10) -/

/-- The first listed inputs, without reset. -/
def State.headInputs (s : State) : Inputs := { s.inputs.headD Inputs.quiet with rst := false }

/-- Drive port `p` with a port's signals. -/
def Inputs.setPort (i : Inputs) (p : Nat) (x : PortIn) : Inputs :=
  { i with ports := (i.ports ++ List.replicate (p + 1 - i.ports.length) PortIn.quiet).set p x }

/-- A byte on the port of the lock's holder (producer 0 is made the holder when there is none), with the sequencer
empty and no reset: the next step transfers it. -/
def State.placeByte (s : State) (b : Byte) : State :=
  let p := s.owner.getD 0
  let i := s.headInputs
  { s with owner := some p
           seq := []
           inputs := Inputs.setPort i p { i.port p with valid := true, byte := b } :: s.inputs.tail }

/-- A symbol at the head of the queue, with the Flasher taking a symbol and no reset: the next step pops it. -/
def State.placeSym (s : State) (x : Sym) : State :=
  { s with q := x :: s.q.tail
           fstate := if s.mayPop then s.fstate else .idle
           inputs := s.headInputs :: s.inputs.tail }

/-- The symbol of a 2-bit code (R86). -/
def symOfCode (c : SymCode) : Sym :=
  if c = 0b00 then .dot else if c = 0b01 then .dash else if c = 0b10 then .eoc else .space

/-- A word of the opcode table, placed in the format it is read in. -/
def State.placeWord (s : State) (nbits w : Nat) : State :=
  match tableFormat nbits w with
  | .byte8 => s.placeByte (BitVec.ofNat 8 w)
  | .sym2  => s.placeSym (symOfCode (BitVec.ofNat 2 w))

end Sys2Proof.Machine
end

