-- ==== Sys2Proof/Machine/Step.lean ====
section
/-! DEFINITION. One step of the machine: one clock cycle (R13, R37). -/

namespace Sys2Proof.Machine

/-- One step: one clock cycle with the inputs that the state holds (log 1). -/
def step (s : State) : Host.Outcome State Fault Refusal := runCycle s

/-- The state with a word of the opcode table stored where the next step takes its instruction from (log 10). -/
def State.withFetchWord (s : State) (nbits w : Nat) : State := s.placeWord nbits w

end Sys2Proof.Machine
end

