-- ==== Sys2Proof/Safety.lean ====
section
/-! DEFINITION. What counts as a safe state and a safe run, in the terms the claims use: the invariants of R36, runs of
cycles, what a run pushes, pops and accepts, and the next-state function of R37 as the spec writes it. -/

namespace Sys2Proof.Machine

/-! ## The invariants of R36 -/

/-- How many cycles the deadline lies ahead: `(now - time) mod 2^TIME_WIDTH` (R36 I4). -/
def State.remaining (s : State) : Nat := subMod s.cfg.timeWidth s.now s.time

/-- The invariants I1 to I5 of R36, with the ranges of R21's table and the legal parameters of R6. -/
structure State.Inv (s : State) : Prop where
  /-- the parameters have legal values (R6) -/
  legal      : s.cfg.legal = true
  /-- `time` has `TIME_WIDTH` bits (R22) -/
  time_lt    : s.time < 2 ^ s.cfg.timeWidth
  /-- `now` has `TIME_WIDTH` bits (R23) -/
  now_lt     : s.now < 2 ^ s.cfg.timeWidth
  /-- the lock's holder is a producer (R27) -/
  owner_lt   : ∀ p, s.owner = some p → p < s.cfg.nProd
  /-- the round-robin pointer is a producer (R28) -/
  rr_lt      : s.rrLast < s.cfg.nProd
  /-- I1: the queue never exceeds its capacity -/
  capacity   : s.q.length ≤ s.cfg.depth
  /-- I2: nothing is left in the sequencer when the lock is free -/
  free_seq   : s.owner = none → s.seq = []
  /-- I3: the sequencer holds the end of some byte's expansion -/
  seq_suffix : s.seq ≠ [] → ∃ b, s.seq <:+ enc b
  /-- I4: the deadline is never overrun -/
  deadline   : s.fstate ≠ .idle → s.remaining ≤ 3 * s.cfg.unitTicks - 1
  /-- I5: the pin is high only in HOLD -/
  pin_hold   : s.pin = true → s.fstate = .hold

/-! ## Runs of cycles -/

/-- The state in the next cycle. Where the machine has no next state, the state stays. -/
def State.nextState (s : State) : State :=
  match step s with
  | .next t => t
  | .fault _ => s
  | .refused _ => s

/-- The state at the start of cycle `k`, counted from `s`. -/
def after : Nat → State → State
  | 0, s => s
  | k + 1, s => after k s.nextState

/-- No reset in the first `n` cycles from `s`. -/
def noReset (n : Nat) (s : State) : Prop := ∀ k, k < n → (after k s).input.rst = false

/-- The symbol that is pushed in this cycle (R147). -/
def State.pushNow (s : State) : Option Sym := if s.input.rst then none else s.enqSym

/-- The symbol that is popped in this cycle (R175, R178). -/
def State.popNow (s : State) : Option Sym := if !s.input.rst && s.mayPop then s.q.head? else none

/-- The byte that is transferred in this cycle (R142). -/
def State.acceptNow (s : State) : Option Byte :=
  match s.owner with
  | none => none
  | some p => if s.transfers p then some (s.port p).byte else none

/-- What `f` gives in each of the first `n` cycles from `s`, in order. -/
def collect {α : Type} (f : State → Option α) : Nat → State → List α
  | 0, _ => []
  | n + 1, s => (f s).toList ++ collect f n s.nextState

/-- The symbols pushed in the first `n` cycles from `s`, in push order. -/
def pushed (n : Nat) (s : State) : List Sym := collect State.pushNow n s

/-- The symbols popped in the first `n` cycles from `s`, in pop order. -/
def popped (n : Nat) (s : State) : List Sym := collect State.popNow n s

/-- The bytes transferred in the first `n` cycles from `s`, in transfer order. -/
def accepted (n : Nat) (s : State) : List Byte := collect State.acceptNow n s

/-- A symbol's period in cycles, `d1 + d2` (R185). -/
def period (c : Config) (x : Sym) : Nat := d1 c x + d2 c

/-- The sum of the periods of a list of symbols. -/
def periods (c : Config) (xs : List Sym) : Nat := (xs.map (period c)).sum

/-- The time units a list of symbols occupies in a continuous stream (R185). -/
def totalUnits (xs : List Sym) : Nat := (xs.map fun x => x.units + 1).sum

/-- The time units of these with the pin high (R185). -/
def highUnits (xs : List Sym) : Nat := (xs.map fun x => if x.isPulse then x.units else 0).sum

/-- Move the timer and the cursor forward by the same amount (R22: only their difference is observable). -/
def State.shiftTime (d : Nat) (s : State) : State :=
  { s with time := wrap s.cfg.timeWidth (s.time + d), now := wrap s.cfg.timeWidth (s.now + d) }

/-- How many other producers come before `p` in the round robin from `last` (R144, R154). -/
def waitRank (n last p : Nat) : Nat := (p + n - (last + 1) % n) % n

/-! ## What one letter of the encoder does, as its rule says it (R101 to R126) -/

/-- The rule of one letter: its two bytes, its ROM word with the word's fields, its expansion, and the time units it
occupies and has the pin high. Both bytes decode to the letter, the ROM holds the word at both, `ENC` of both is the
expansion, the same bytes with bit 7 set are ignored, and executing the letter where the port is ready loads the
expansion and the port's `in_last`, and changes nothing else. -/
def LetterMeans (make : Bool → Instr) (upper lower : Byte) (word : RomWord) (nel : Nat) (pat : BitVec 4)
    (syms : List Sym) (total high : Nat) : Prop :=
  decodeByte8 upper = make false ∧ decodeByte8 lower = make true
    ∧ decodeByte8 (upper ||| 0x80) = .ignore (upper ||| 0x80) ∧ decodeByte8 (lower ||| 0x80) = .ignore (lower ||| 0x80)
    ∧ memRead upper = word ∧ memRead lower = word ∧ word.kind = 0b01 ∧ word.nel = nel ∧ word.pat = pat
    ∧ enc upper = syms ∧ enc lower = syms ∧ syms.length = nel + 1
    ∧ syms.count .eoc = 1 ∧ syms.getLast? = some .eoc
    ∧ totalUnits syms = total ∧ highUnits syms = high
    ∧ ∀ (isLow : Bool) (s : State) (p : Nat), s.input.rst = false → s.owner = some p → s.seq = [] →
        exec (make isLow) s = .next { s with seq := syms, seqLast := (s.port p).last }

/-! ## The next-state function, transcribed from the pseudocode of R37, R141, R144, R150 and R170 -/

/-- What `Ingest` returns (R37, R141). -/
structure IngestOut where
  owner   : Option Nat
  rrLast  : Nat
  seq     : List Sym
  seqLast : Bool
  push    : Option Sym
  deriving DecidableEq, Repr

/-- What `Flasher` returns (R37, R170). -/
structure FlasherOut where
  fstate : FState
  now    : Nat
  pin    : Bool
  pop    : Bool
  deriving DecidableEq, Repr

/-- `rr_pick(req, last)`: the first producer that requests, in R144's order. -/
def rrFirst (n last : Nat) (req : Nat → Bool) : Option Nat :=
  ((List.range n).map fun j => (last + 1 + j) % n).find? req

/-- `Ingest(S, In)` of R141. -/
def ingestR141 (s : State) : IngestOut :=
  let keep : IngestOut :=
    { owner := s.owner, rrLast := s.rrLast, seq := s.seq, seqLast := s.seqLast, push := none }
  match s.owner with
  | none =>
    match rrFirst s.cfg.nProd s.rrLast (fun p => (s.input.port p).req) with
    | some g => { keep with owner := some g, rrLast := g }
    | none   => keep
  | some p =>
    let x := s.input.port p
    if s.seq = [] then
      if x.valid then
        if enc x.byte = [] ∧ x.last = true then { keep with owner := none }
        else { keep with seq := enc x.byte, seqLast := x.last }
      else keep
    else if s.q.length < s.cfg.depth then
      { keep with push := s.seq.head?, seq := s.seq.tail
                  owner := if s.seq.tail = [] ∧ s.seqLast = true then none else some p }
    else keep

/-- `Flasher(S)` of R170. -/
def flasherR170 (s : State) : FlasherOut :=
  let w := s.cfg.timeWidth
  let keep : FlasherOut := { fstate := s.fstate, now := s.now, pin := s.pin, pop := false }
  match s.fstate with
  | .idle =>
    match s.q with
    | x :: _ => { fstate := .hold, now := (s.time + d1 s.cfg x) % 2 ^ w, pin := x.isPulse, pop := true }
    | []     => keep
  | .hold =>
    if reached w s.time s.now then
      { fstate := .gap, now := (s.now + d2 s.cfg) % 2 ^ w, pin := false, pop := false }
    else keep
  | .gap =>
    if reached w s.time s.now then
      match s.q with
      | x :: _ => { fstate := .hold, now := (s.now + d1 s.cfg x) % 2 ^ w, pin := x.isPulse, pop := true }
      | []     => { keep with fstate := .idle }
    else keep

/-- `FifoUpdate(Q, pop, push)` of R150. -/
def fifoUpdate (q : List Sym) (pop : Bool) (push : Option Sym) : List Sym :=
  let q1 := if pop then q.tail else q
  match push with
  | none   => q1
  | some x => q1 ++ [x]

/-- `Step(S, In)` of R37. The inputs of the next cycle come up, and the parameters stay. -/
def stepR37 (s : State) : State :=
  if s.input.rst then
    { State.resetOf s.cfg with inputs := s.inputs.tail, cycle := s.cycle + 1 }
  else
    let i := ingestR141 s
    let f := flasherR170 s
    { cfg := s.cfg, time := (s.time + 1) % 2 ^ s.cfg.timeWidth, now := f.now, fstate := f.fstate, pin := f.pin
      q := fifoUpdate s.q f.pop i.push, owner := i.owner, rrLast := i.rrLast, seq := i.seq, seqLast := i.seqLast
      inputs := s.inputs.tail, cycle := s.cycle + 1 }

/-! ## Inputs that are ignored (R149) -/

/-- Two draws of a cycle's inputs agree on all that state `s` does not ignore (R149, R230): the reset line; without a
reset, the requests while the lock is free, and, while the lock is held and the sequencer is empty, whether the
holder offers a byte, and which byte with which `in_last` if it does. -/
def AgreeOnReadInputs (s : State) (i j : Inputs) : Prop :=
  i.rst = j.rst ∧
    (i.rst = false →
      (s.owner = none → ∀ p, p < s.cfg.nProd → (i.port p).req = (j.port p).req) ∧
      (∀ p, s.owner = some p → s.seq = [] →
        (i.port p).valid = (j.port p).valid ∧
        ((i.port p).valid = true → (i.port p).byte = (j.port p).byte ∧ (i.port p).last = (j.port p).last)))

end Sys2Proof.Machine
end

