-- ==== Sys2Proof/Certificates/Slice0/Obligations.lean ====
section
/-! DEFINITION. The statements for the provers. -/

open Sys2Proof Sys2Proof.Machine

/-! ## Encoding -/

/-- Words written out from R80, R86 and R87's tables decode to the instructions they stand for, alone, as bytes and in
the opcode table's numbering. The numbering of the words 0 to 3 is the model's choice (log 9). -/
def Obligations.WordsOfEachFormatDecode : Prop :=
  decodeByte8 0b01000001 = .letterA false ∧ decodeByte8 0b01100001 = .letterA true
    ∧ decodeByte8 0b01001010 = .letterJ false ∧ decodeByte8 0b01111010 = .letterZ true
    ∧ decodeByte8 0b00100000 = .spaceByte ∧ decodeByte8 0b00110001 = .ignore 0x31
    ∧ decodeByte8 0b11000001 = .ignore 0xC1
    ∧ decodeSym2 0b00 = .dot ∧ decodeSym2 0b01 = .dash ∧ decodeSym2 0b10 = .eoc ∧ decodeSym2 0b11 = .space
    ∧ decodeTableWord 8 0x53 = some (.letterS false) ∧ decodeTableWord 8 0x01 = some .dash
    ∧ decodeTableWord 8 0x100 = none
    ∧ decodeBytes .sym2 [0x04] = .error .notASymbol ∧ decodeBytes .byte8 [] = .error .noCode

/-- Decode and encode agree: a well-formed instruction's code decodes to it, and so do its bytes, whatever bytes follow. -/
def Obligations.DecodeOfEncodeIsTheInstruction : Prop :=
  ∀ (i : Instr) (rest : List Byte), i.wf = true →
    decode (encode i) = i ∧ decodeBytes i.format (encodeBytes i ++ rest) = .ok (i, rest)

/-- Each code has one meaning: every code is the code of the instruction it decodes to, and that is well formed. -/
def Obligations.EncodeOfDecodeIsTheCode : Prop :=
  ∀ c : Code, encode (decode c) = c ∧ (decode c).wf = true

/-- R81: the three classes of bytes, by their ranges, in the ROM's `KIND` and in the decoder, and their counts. -/
def Obligations.BytesFallIntoThreeClasses : Prop :=
  (∀ b : Byte,
      (((0x41 ≤ b ∧ b ≤ 0x5A) ∨ (0x61 ≤ b ∧ b ≤ 0x7A)) ↔ (memRead b).kind = 0b01)
        ∧ (b = 0x20 ↔ (memRead b).kind = 0b10)
        ∧ ((b ≤ 0x1F ∨ (0x21 ≤ b ∧ b ≤ 0x40) ∨ (0x5B ≤ b ∧ b ≤ 0x60) ∨ 0x7B ≤ b) ↔ (memRead b).kind = 0b00)
        ∧ (b = 0x20 ↔ decodeByte8 b = .spaceByte)
        ∧ ((b ≤ 0x1F ∨ (0x21 ≤ b ∧ b ≤ 0x40) ∨ (0x5B ≤ b ∧ b ≤ 0x60) ∨ 0x7B ≤ b) ↔ decodeByte8 b = .ignore b))
    ∧ ((List.range 256).filter fun n => (memRead (BitVec.ofNat 8 n)).kind == 0b01).length = 52
    ∧ ((List.range 256).filter fun n => (memRead (BitVec.ofNat 8 n)).kind == 0b10).length = 1
    ∧ ((List.range 256).filter fun n => (memRead (BitVec.ofNat 8 n)).kind == 0b00).length = 203

/-- R82: the two cases of a letter, and only of a letter, differ in bit 5 and have one ROM word. -/
def Obligations.CaseFoldingOfLetters : Prop :=
  (∀ b : Byte, byteClass b = .letter →
      byteClass (b ^^^ 0x20) = .letter ∧ memRead (b ^^^ 0x20) = memRead b
        ∧ (b.getLsbD 5 = true ↔ 0x61 ≤ b))
    ∧ byteClass 0x40 = .ignore ∧ byteClass 0x60 = .ignore
    ∧ byteClass 0x00 = .ignore ∧ byteClass 0x20 = .space

/-- R84: which ROM words are reserved, that `expand` refuses exactly these, and that the ROM holds none. -/
def Obligations.ReservedRomWordsAreRefusedAndNeverHeld : Prop :=
  (∀ w : RomWord, expand w = .error .reservedRomWord ↔
      (w.kind = 0b11
        ∨ (w.kind = 0b01 ∧ (w.nel = 0 ∨ 4 < w.nel))
        ∨ ((w.kind = 0b00 ∨ w.kind = 0b10) ∧ (w.nel ≠ 0 ∨ w.pat ≠ 0))
        ∨ ∃ i, i < 4 ∧ w.pat.getLsbD i = true ∧ w.nel ≤ i))
    ∧ ∀ b : Byte, expand (memRead b) ≠ .error .reservedRomWord

/-- R86, R171 to R173: the symbol codes, the pin level and the durations of the two phases. -/
def Obligations.SymbolCodesAndDurations : Prop :=
  Sym.dot.code = 0b00 ∧ Sym.dash.code = 0b01 ∧ Sym.eoc.code = 0b10 ∧ Sym.space.code = 0b11
    ∧ Sym.dot.isPulse = true ∧ Sym.dash.isPulse = true ∧ Sym.eoc.isPulse = false ∧ Sym.space.isPulse = false
    ∧ (∀ x : Sym, x.isPulse = !x.code.getLsbD 1)
    ∧ ∀ c : Config,
        d1 c .dot = 1 * c.unitTicks ∧ d1 c .dash = 3 * c.unitTicks
          ∧ d1 c .eoc = 1 * c.unitTicks ∧ d1 c .space = 3 * c.unitTicks
          ∧ d2 c = 1 * c.unitTicks
          ∧ ∀ x : Sym, d1 c x = c.unitTicks * (1 + 2 * (x.code.getLsbD 0).toNat)

/-- R130, R131: the length of every byte's expansion, and the one EOC of a letter, in the last place. -/
def Obligations.ExpansionLengthsAndOneEoc : Prop :=
  ∀ b : Byte,
    (byteClass b = .letter → (enc b).length = (memRead b).nel + 1 ∧ 2 ≤ (enc b).length ∧ (enc b).length ≤ 5
        ∧ (enc b).count .eoc = 1 ∧ (enc b).getLast? = some .eoc ∧ (enc b).count .space = 0)
      ∧ (byteClass b = .space → enc b = [.space])
      ∧ (byteClass b = .ignore → enc b = [])

/-! ## The instructions of the ingest unit -/

/-- R101 to R109: the letters A to I. -/
def Obligations.LettersAToILoadTheirExpansion : Prop :=
  LetterMeans .letterA 0x41 0x61 0x049 2 0b0010 [.dot, .dash, .eoc] 8 4
    ∧ LetterMeans .letterB 0x42 0x62 0x031 4 0b0001 [.dash, .dot, .dot, .dot, .eoc] 12 6
    ∧ LetterMeans .letterC 0x43 0x63 0x0B1 4 0b0101 [.dash, .dot, .dash, .dot, .eoc] 14 8
    ∧ LetterMeans .letterD 0x44 0x64 0x02D 3 0b0001 [.dash, .dot, .dot, .eoc] 10 5
    ∧ LetterMeans .letterE 0x45 0x65 0x005 1 0b0000 [.dot, .eoc] 4 1
    ∧ LetterMeans .letterF 0x46 0x66 0x091 4 0b0100 [.dot, .dot, .dash, .dot, .eoc] 12 6
    ∧ LetterMeans .letterG 0x47 0x67 0x06D 3 0b0011 [.dash, .dash, .dot, .eoc] 12 7
    ∧ LetterMeans .letterH 0x48 0x68 0x011 4 0b0000 [.dot, .dot, .dot, .dot, .eoc] 10 4
    ∧ LetterMeans .letterI 0x49 0x69 0x009 2 0b0000 [.dot, .dot, .eoc] 6 2

/-- R110 to R118: the letters J to R. -/
def Obligations.LettersJToRLoadTheirExpansion : Prop :=
  LetterMeans .letterJ 0x4A 0x6A 0x1D1 4 0b1110 [.dot, .dash, .dash, .dash, .eoc] 16 10
    ∧ LetterMeans .letterK 0x4B 0x6B 0x0AD 3 0b0101 [.dash, .dot, .dash, .eoc] 12 7
    ∧ LetterMeans .letterL 0x4C 0x6C 0x051 4 0b0010 [.dot, .dash, .dot, .dot, .eoc] 12 6
    ∧ LetterMeans .letterM 0x4D 0x6D 0x069 2 0b0011 [.dash, .dash, .eoc] 10 6
    ∧ LetterMeans .letterN 0x4E 0x6E 0x029 2 0b0001 [.dash, .dot, .eoc] 8 4
    ∧ LetterMeans .letterO 0x4F 0x6F 0x0ED 3 0b0111 [.dash, .dash, .dash, .eoc] 14 9
    ∧ LetterMeans .letterP 0x50 0x70 0x0D1 4 0b0110 [.dot, .dash, .dash, .dot, .eoc] 14 8
    ∧ LetterMeans .letterQ 0x51 0x71 0x171 4 0b1011 [.dash, .dash, .dot, .dash, .eoc] 16 10
    ∧ LetterMeans .letterR 0x52 0x72 0x04D 3 0b0010 [.dot, .dash, .dot, .eoc] 10 5

/-- R119 to R126: the letters S to Z. -/
def Obligations.LettersSToZLoadTheirExpansion : Prop :=
  LetterMeans .letterS 0x53 0x73 0x00D 3 0b0000 [.dot, .dot, .dot, .eoc] 8 3
    ∧ LetterMeans .letterT 0x54 0x74 0x025 1 0b0001 [.dash, .eoc] 6 3
    ∧ LetterMeans .letterU 0x55 0x75 0x08D 3 0b0100 [.dot, .dot, .dash, .eoc] 10 5
    ∧ LetterMeans .letterV 0x56 0x76 0x111 4 0b1000 [.dot, .dot, .dot, .dash, .eoc] 12 6
    ∧ LetterMeans .letterW 0x57 0x77 0x0CD 3 0b0110 [.dot, .dash, .dash, .eoc] 12 7
    ∧ LetterMeans .letterX 0x58 0x78 0x131 4 0b1001 [.dash, .dot, .dot, .dash, .eoc] 14 8
    ∧ LetterMeans .letterY 0x59 0x79 0x1B1 4 0b1101 [.dash, .dot, .dash, .dash, .eoc] 16 10
    ∧ LetterMeans .letterZ 0x5A 0x7A 0x071 4 0b0011 [.dash, .dash, .dot, .dot, .eoc] 14 8

/-- R127: the space byte loads one SPACE and no EOC, which occupies four units, none of them high. 0x00 and 0xA0 are
ignored bytes. Repeated spaces are not collapsed: each gives its own SPACE. -/
def Obligations.SpaceByteLoadsOneSpace : Prop :=
  decodeByte8 0x20 = .spaceByte ∧ memRead 0x20 = 0x002 ∧ enc 0x20 = [.space]
    ∧ decodeByte8 0x00 = .ignore 0x00 ∧ decodeByte8 0xA0 = .ignore 0xA0
    ∧ totalUnits [.space] = 4 ∧ highUnits [.space] = 0
    ∧ (∀ n, (List.replicate n (0x20 : Byte)).flatMap enc = List.replicate n .space
        ∧ totalUnits (List.replicate n .space) = 4 * n)
    ∧ ∀ (s : State) (p : Nat), s.input.rst = false → s.owner = some p → s.seq = [] →
        exec .spaceByte s = .next { s with seq := [.space], seqLast := (s.port p).last }

/-- R128, R146: an ignored byte, of R128's ranges, loads nothing, and the bytes around it encode as if it were not
there. A final one releases the lock and writes neither `seq` nor `seq_last`; another one leaves the lock held, and
writes its `in_last`, which is 0. -/
def Obligations.IgnoredByteLoadsNothing : Prop :=
  ∀ b : Byte, (b ≤ 0x1F ∨ (0x21 ≤ b ∧ b ≤ 0x40) ∨ (0x5B ≤ b ∧ b ≤ 0x60) ∨ 0x7B ≤ b) →
    (Instr.ignore b).wf = true ∧ enc b = [] ∧ memRead b = 0x000 ∧ decodeByte8 b = .ignore b ∧
    (∀ before later : List Byte, (before ++ b :: later).flatMap enc = (before ++ later).flatMap enc) ∧
    ∀ (s : State) (p : Nat), s.input.rst = false → s.owner = some p → s.seq = [] →
      exec (.ignore b) s =
        .next (if (s.port p).last = true then { s with owner := none } else { s with seq := [], seqLast := false })

/-- R149, R238: a byte offered where no port is ready is not taken. It changes nothing and is no error. -/
def Obligations.ByteWithoutReadyPortChangesNothing : Prop :=
  ∀ (i : Instr) (s : State), i.format = .byte8 → (∀ p, s.inReady p = false) → exec i s = .next s

/-- R37, R211: the frame of the 28 byte instructions. Whatever the state, executing one writes only `owner`, `seq` and
`seqLast`: the queue, the timer, the Flasher's registers and the round-robin pointer stay. -/
def Obligations.ByteInstructionsLeaveTheFlasherAlone : Prop :=
  ∀ (i : Instr) (s t : State), i.format = .byte8 → exec i s = .next t →
    t.cfg = s.cfg ∧ t.time = s.time ∧ t.now = s.now ∧ t.fstate = s.fstate ∧ t.pin = s.pin ∧ t.q = s.q
      ∧ t.rrLast = s.rrLast ∧ t.inputs = s.inputs ∧ t.cycle = s.cycle
      ∧ (t.owner = s.owner ∨ t.owner = none)

/-! ## The instructions of the Flasher -/

/-- R175: a symbol at the head of the queue, popped from IDLE. It is removed, the cursor is rebased to `time` plus the
symbol's first phase, the pin goes high exactly for DOT and DASH, and HOLD begins. Nothing else changes. -/
def Obligations.SymbolsPopFromIdleWithARebase : Prop :=
  ∀ (s : State) (rest : List Sym), s.fstate = .idle →
    (s.q = .dot :: rest → exec .dot s = .next { s with
        q := rest, now := (s.time + 1 * s.cfg.unitTicks) % 2 ^ s.cfg.timeWidth, pin := true, fstate := .hold })
    ∧ (s.q = .dash :: rest → exec .dash s = .next { s with
        q := rest, now := (s.time + 3 * s.cfg.unitTicks) % 2 ^ s.cfg.timeWidth, pin := true, fstate := .hold })
    ∧ (s.q = .eoc :: rest → exec .eoc s = .next { s with
        q := rest, now := (s.time + 1 * s.cfg.unitTicks) % 2 ^ s.cfg.timeWidth, pin := false, fstate := .hold })
    ∧ (s.q = .space :: rest → exec .space s = .next { s with
        q := rest, now := (s.time + 3 * s.cfg.unitTicks) % 2 ^ s.cfg.timeWidth, pin := false, fstate := .hold })

/-- R178: a symbol at the head of the queue, popped at the end of the gap. The cursor is kept: the new deadline counts
from the old one. -/
def Obligations.SymbolsPopAtTheGapDeadlineWithoutARebase : Prop :=
  ∀ (s : State) (rest : List Sym), s.fstate = .gap → reached s.cfg.timeWidth s.time s.now = true →
    (s.q = .dot :: rest → exec .dot s = .next { s with
        q := rest, now := (s.now + 1 * s.cfg.unitTicks) % 2 ^ s.cfg.timeWidth, pin := true, fstate := .hold })
    ∧ (s.q = .dash :: rest → exec .dash s = .next { s with
        q := rest, now := (s.now + 3 * s.cfg.unitTicks) % 2 ^ s.cfg.timeWidth, pin := true, fstate := .hold })
    ∧ (s.q = .eoc :: rest → exec .eoc s = .next { s with
        q := rest, now := (s.now + 1 * s.cfg.unitTicks) % 2 ^ s.cfg.timeWidth, pin := false, fstate := .hold })
    ∧ (s.q = .space :: rest → exec .space s = .next { s with
        q := rest, now := (s.now + 3 * s.cfg.unitTicks) % 2 ^ s.cfg.timeWidth, pin := false, fstate := .hold })

/-- A symbol waits, and changes nothing, while the Flasher is in HOLD, while its gap has not ended, and while it is not
at the head of the queue. Where a meaning stands idle is the model's choice (log 12). -/
def Obligations.SymbolsWaitForTheirTurn : Prop :=
  ∀ (x : Sym) (s : State),
    (s.fstate = .hold ∨ (s.fstate = .gap ∧ reached s.cfg.timeWidth s.time s.now = false) ∨ s.q.head? ≠ some x) →
    exec (decodeSym2 x.code) s = .next s

/-- R37, R211: the frame of the four symbol instructions. Whatever the state, executing one writes only `q`, `now`,
`pin` and `fstate`: the lock, the sequencer and the timer stay. It leaves the queue, or takes its head. -/
def Obligations.SymbolInstructionsLeaveTheIngestUnitAlone : Prop :=
  ∀ (i : Instr) (s t : State), i.format = .sym2 → exec i s = .next t →
    t.cfg = s.cfg ∧ t.time = s.time ∧ t.owner = s.owner ∧ t.rrLast = s.rrLast ∧ t.seq = s.seq
      ∧ t.seqLast = s.seqLast ∧ t.inputs = s.inputs ∧ t.cycle = s.cycle ∧ (t.q = s.q ∨ t.q = s.q.tail)

/-! ## One step -/

/-- A step runs the byte that the lock's holder transfers: it executes the decoded byte, then the Flasher acts, the
timer counts and the next inputs come up. -/
def Obligations.StepRunsTheTransferredByte : Prop :=
  ∀ (s : State) (p : Nat), s.cfg.legal = true → s.input.rst = false → s.owner = some p → s.seq = [] →
    (s.port p).valid = true →
    step s = thenDo (exec (decodeByte8 (s.port p).byte) s) fun s1 =>
      thenDo (flasherStep s1) fun s2 => .next s2.tick.nextInputs

/-- A step runs the symbol at the head of the queue when the Flasher takes one: after the ingest unit's action, it
executes the decoded symbol, then the pushed symbol is appended, the timer counts and the next inputs come up. -/
def Obligations.StepRunsThePoppedSymbol : Prop :=
  ∀ (s : State) (x : Sym) (rest : List Sym), s.cfg.legal = true → s.input.rst = false → s.q = x :: rest →
    (s.fstate = .idle ∨ (s.fstate = .gap ∧ reached s.cfg.timeWidth s.time s.now = true)) →
    step s = thenDo (ingestStep s) fun s1 =>
      thenDo (exec (decodeSym2 x.code) s1) fun s2 => .next (s2.pushSym s.enqSym).tick.nextInputs

/-- R37 with R141, R170, R150, R144 and R208: the step that decodes and executes instructions is the next-state function
that the spec composes of its two units. -/
def Obligations.StepIsTheSpecsNextStateFunction : Prop :=
  ∀ s : State, s.cfg.legal = true → step s = .next (stepR37 s)

/-- R200: every input combination in every state has a defined next state, and no step faults. -/
def Obligations.EveryStateHasANextState : Prop :=
  (∀ s : State, s.cfg.legal = true → ∃ t, step s = .next t ∧ t.cfg = s.cfg)
    ∧ ∀ (s : State) (f : Fault), step s ≠ .fault f

/-- R6 (D25): a step is refused exactly when a parameter is outside its legal values. -/
def Obligations.IllegalConfigurationsAreRefused : Prop :=
  ∀ s : State, step s = .refused .illegalConfig ↔
    ¬ (1 ≤ s.cfg.depth ∧ 1 ≤ s.cfg.unitTicks ∧ 2 ≤ s.cfg.timeWidth
        ∧ 3 * s.cfg.unitTicks < 2 ^ (s.cfg.timeWidth - 1) ∧ 1 ≤ s.cfg.nProd ∧ 1 ≤ s.cfg.fClk)

/-! ## The lock -/

/-- R144: the round robin picks a requester that no requester precedes in the order from `last + 1`, and picks one
whenever there is one. -/
def Obligations.RoundRobinPicksTheFirstRequester : Prop :=
  ∀ (n last : Nat) (req : Nat → Bool), 0 < n →
    (∀ g, rrPick n last req = some g →
      ∃ k, 1 ≤ k ∧ k ≤ n ∧ g = (last + k) % n ∧ req g = true ∧ ∀ j, 1 ≤ j → j < k → req ((last + j) % n) = false)
    ∧ ((∃ p, p < n ∧ req p = true) ↔ rrPick n last req ≠ none)
    ∧ (n = 1 → req 0 = true → rrPick n last req = some 0)

/-- R143: a free lock is granted to the producer the round robin picks, if one requests, and is otherwise left free.
No byte transfers in that cycle, and a grant shows on `gnt` in the next one. -/
def Obligations.FreeLockIsGrantedToTheRoundRobinsChoice : Prop :=
  ∀ s : State, s.cfg.legal = true → s.input.rst = false → s.owner = none →
    (∀ p, s.inReady p = false ∧ s.gnt p = false) ∧
    ∃ t, step s = .next t ∧ t.seq = s.seq ∧ t.seqLast = s.seqLast ∧
      (∀ g, rrPick s.cfg.nProd s.rrLast (fun p => (s.port p).req) = some g →
        t.owner = some g ∧ t.rrLast = g ∧ (t.input.rst = false → t.gnt g = true)) ∧
      (rrPick s.cfg.nProd s.rrLast (fun p => (s.port p).req) = none → t.owner = none ∧ t.rrLast = s.rrLast)

/-- The lock never passes from one producer to another in one cycle. It is taken only when free, by a producer that
requests, and given up only with the sequencer empty: with the push of a final byte's last symbol, or with the transfer
of a final byte without symbols. Without a reset nothing else changes it. -/
def Obligations.LockPassesOnlyThroughFree : Prop :=
  ∀ s t : State, step s = .next t → s.input.rst = false →
    (∀ p p', s.owner = some p → t.owner = some p' → p' = p) ∧
    (∀ p, s.owner = none → t.owner = some p → p < s.cfg.nProd ∧ (s.port p).req = true ∧ t.rrLast = p) ∧
    (∀ p, s.owner = some p → t.owner = none →
      t.seq = [] ∧ t.rrLast = s.rrLast ∧
        ((∃ x, s.seq = [x] ∧ s.seqLast = true ∧ s.pushNow = some x) ∨
          (∃ b, s.acceptNow = some b ∧ enc b = [] ∧ (s.port p).last = true)))

/-- R154: while another producer is granted, a requester's place in the round robin goes down, it is below `N_PROD`
throughout, and in place 0 the requester itself is granted. So at most `N_PROD - 1` other messages come first. -/
def Obligations.WaitingProducerMovesUpAtEveryGrant : Prop :=
  ∀ (n last p g : Nat) (req : Nat → Bool), p < n → req p = true → rrPick n last req = some g →
    waitRank n last p < n ∧ (waitRank n last p = 0 → g = p)
      ∧ (g ≠ p → waitRank n g p < waitRank n last p)

/-- No two producers hold a grant in one cycle, and only a granted port is ready. -/
def Obligations.AtMostOneProducerIsGranted : Prop :=
  ∀ (s : State) (p p' : Nat),
    (s.gnt p = true → s.gnt p' = true → p = p') ∧ (s.inReady p = true → s.gnt p = true)
      ∧ (s.transfers p = true → s.transfers p' = true → p = p')

/-! ## Bytes, pushes and the queue -/

/-- R145, R146: the transfer of any byte, in one step. The sequencer is loaded with `ENC` of the byte and the byte's
`in_last`, but a final byte without symbols releases the lock and writes neither. No push happens in that cycle. A
port that offers nothing leaves all of it. -/
def Obligations.TransferLoadsTheEncodedByte : Prop :=
  ∀ (s : State) (p : Nat), s.cfg.legal = true → s.input.rst = false → s.owner = some p → s.seq = [] →
    s.pushNow = none ∧
    ∃ t, step s = .next t ∧ t.rrLast = s.rrLast ∧
      ((s.port p).valid = true → (enc (s.port p).byte ≠ [] ∨ (s.port p).last = false) →
        t.owner = some p ∧ t.seq = enc (s.port p).byte ∧ t.seqLast = (s.port p).last) ∧
      ((s.port p).valid = true → enc (s.port p).byte = [] → (s.port p).last = true →
        t.owner = none ∧ t.seq = [] ∧ t.seqLast = s.seqLast) ∧
      ((s.port p).valid = false → t.owner = some p ∧ t.seq = [] ∧ t.seqLast = s.seqLast)

/-- R147: with room at the start of the cycle, the head of the sequencer is pushed, and the lock is released with the
last symbol of a final byte. The pushed symbol is the last of the queue in the next cycle. -/
def Obligations.SequencerPushesOneSymbolACycle : Prop :=
  ∀ (s : State) (p : Nat) (x : Sym) (rest : List Sym), s.cfg.legal = true → s.input.rst = false →
    s.owner = some p → s.seq = x :: rest → s.q.length < s.cfg.depth →
    s.pushNow = some x ∧
    ∃ t, step s = .next t ∧ t.seq = rest ∧ t.seqLast = s.seqLast ∧ t.rrLast = s.rrLast
      ∧ t.owner = (if rest = [] ∧ s.seqLast = true then none else some p)
      ∧ t.q = (if s.popNow.isSome then s.q.tail else s.q) ++ [x]

/-- R148: with a full queue the ingest unit waits, the lock stays held and the port stays not ready, even when the
Flasher pops in the same cycle (R66). -/
def Obligations.FullQueueStallsTheSequencer : Prop :=
  ∀ (s : State) (p : Nat), s.cfg.legal = true → s.input.rst = false → s.owner = some p → s.seq ≠ [] →
    s.q.length = s.cfg.depth →
    s.pushNow = none ∧ s.inReady p = false ∧
    ∃ t, step s = .next t ∧ t.owner = some p ∧ t.seq = s.seq ∧ t.seqLast = s.seqLast ∧ t.rrLast = s.rrLast
      ∧ t.inReady p = false ∧ t.q = (if s.popNow.isSome then s.q.tail else s.q)

/-- R149, R230: ignored inputs have no effect. Two draws of this cycle's inputs that agree on what the state does not
ignore lead to the same outcome, whatever they drive elsewhere. -/
def Obligations.IgnoredInputsHaveNoEffect : Prop :=
  ∀ (s : State) (i j : Inputs) (later : List Inputs), AgreeOnReadInputs s i j →
    step { s with inputs := i :: later } = step { s with inputs := j :: later }

/-- R150, R151, R65, R66: the queue's update. The pop takes the old head and happens only with a symbol there at the
start of the cycle; the push appends and happens only with room at the start of the cycle; both take effect. -/
def Obligations.QueueUpdateTakesThePopAndThePush : Prop :=
  ∀ s : State, s.cfg.legal = true → s.input.rst = false →
    (∀ x, s.popNow = some x → s.q.head? = some x) ∧
    (∀ x, s.pushNow = some x → s.q.length < s.cfg.depth ∧ s.seq.head? = some x) ∧
    ∃ t, step s = .next t ∧ t.q = fifoUpdate s.q s.popNow.isSome s.pushNow

/-! ## The Flasher's transitions -/

/-- R176, R191: with an empty queue the Flasher stays in IDLE, for as long as the queue stays empty: it repeats nothing,
and the pin and the cursor stay. -/
def Obligations.IdleFlasherWaitsForASymbol : Prop :=
  ∀ (s : State) (n : Nat), s.cfg.legal = true → s.fstate = .idle → noReset n s →
    (∀ k, k < n → (after k s).q = []) →
    (after n s).fstate = .idle ∧ (after n s).now = s.now ∧ (after n s).pin = s.pin

/-- R177: at the deadline of HOLD the pin goes low, the cursor moves one unit on from the old deadline, and the gap
begins. Nothing is popped. -/
def Obligations.HoldEndsAtItsDeadline : Prop :=
  ∀ s : State, s.cfg.legal = true → s.input.rst = false → s.fstate = .hold →
    reached s.cfg.timeWidth s.time s.now = true →
    s.popNow = none ∧
    ∃ t, step s = .next t ∧ t.pin = false ∧ t.now = (s.now + s.cfg.unitTicks) % 2 ^ s.cfg.timeWidth
      ∧ t.fstate = .gap

/-- R179: at the deadline of the gap with an empty queue the Flasher goes to IDLE. The cursor and the pin are not
written, and a symbol pushed in that cycle is not popped in it. -/
def Obligations.EmptyQueueAtTheGapDeadlineGoesIdle : Prop :=
  ∀ s : State, s.cfg.legal = true → s.input.rst = false → s.fstate = .gap → s.q = [] →
    reached s.cfg.timeWidth s.time s.now = true →
    s.popNow = none ∧
    ∃ t, step s = .next t ∧ t.fstate = .idle ∧ t.now = s.now ∧ t.pin = s.pin ∧ t.q = s.pushNow.toList

/-- R180: before its deadline the Flasher holds its state. -/
def Obligations.FlasherWaitsForItsDeadline : Prop :=
  ∀ s : State, s.cfg.legal = true → s.input.rst = false → s.fstate ≠ .idle →
    reached s.cfg.timeWidth s.time s.now = false →
    s.popNow = none ∧
    ∃ t, step s = .next t ∧ t.fstate = s.fstate ∧ t.now = s.now ∧ t.pin = s.pin

/-- R174: the deadline test reads the difference as a two's complement number, and under I4 it holds in exactly the
cycle in which `time` equals `now`, across the wrap too. -/
def Obligations.DeadlineIsReachedExactlyOnTime : Prop :=
  (∀ w time now : Nat, reached w time now = true ↔ ((time : Int) - now) % (2 ^ w : Int) < 2 ^ (w - 1)) ∧
    ∀ s : State, s.Inv → s.fstate ≠ .idle → (s.dl = true ↔ s.time = s.now)

/-! ## The timer and reset -/

/-- R208: the timer counts one up in every cycle without a reset, modulo its width, and is loaded with 0 by a reset. -/
def Obligations.TimerCountsEveryCycle : Prop :=
  ∀ s : State, s.cfg.legal = true →
    ∃ t, step s = .next t ∧ t.time = (if s.input.rst then 0 else (s.time + 1) % 2 ^ s.cfg.timeWidth)

/-- R230, R240: one cycle of reset leads to ResetState, whatever the state and the other inputs. -/
def Obligations.ResetLoadsResetStateFromAnyState : Prop :=
  ∀ s : State, s.cfg.legal = true → s.input.rst = true →
    step s = .next
      { cfg := s.cfg, time := 0, now := 0, fstate := .idle, pin := false, q := [], owner := none,
        rrLast := s.cfg.nProd - 1, seq := [], seqLast := false, inputs := s.inputs.tail, cycle := s.cycle + 1 }

/-- R231: in a reset cycle no port sees a grant or is ready, and the other outputs show the start-of-cycle state. In the
cycle after it they show the reset values. -/
def Obligations.OutputsDuringAndAfterReset : Prop :=
  ∀ s : State, s.cfg.legal = true → s.input.rst = true →
    (∀ p, s.gnt p = false ∧ s.inReady p = false) ∧
    (∀ b, b ∈ s.outputs.gnt ++ s.outputs.inReady → b = false) ∧
    s.outputs.pin = s.pin ∧ s.outputs.qLevel = s.q.length ∧ s.outputs.fState = s.fstate.code ∧
    ∃ t, step s = .next t ∧ t.outputs.pin = false ∧ t.outputs.qLevel = 0 ∧ t.outputs.fState = 0b00

/-- R21: the reset values of the nine elements, for every configuration. -/
def Obligations.ResetValuesOfEveryElement : Prop :=
  State.reset = State.resetOf Config.reference ∧
    ∀ c : Config,
      (State.resetOf c).time = 0 ∧ (State.resetOf c).now = 0 ∧ (State.resetOf c).fstate = .idle
        ∧ (State.resetOf c).pin = false ∧ (State.resetOf c).q = [] ∧ (State.resetOf c).owner = none
        ∧ (State.resetOf c).rrLast = c.nProd - 1 ∧ (State.resetOf c).seq = [] ∧ (State.resetOf c).seqLast = false

/-! ## Invariants -/

/-- R36: the invariants hold after reset, in every legal configuration and in `State.reset`'s own. -/
def Obligations.ResetStateMeetsTheInvariants : Prop :=
  (∀ c : Config, c.legal = true → (State.resetOf c).Inv) ∧ State.reset.Inv

/-- R36: every step keeps the invariants I1 to I5 and the ranges, from every state that meets them and for all inputs. -/
def Obligations.EveryStepKeepsTheInvariants : Prop :=
  ∀ s t : State, s.Inv → step s = .next t → t.Inv

/-- The machine runs for any number of cycles from every state with legal parameters, and `after` is its run. -/
def Obligations.RunsNeverStop : Prop :=
  ∀ (s : State) (n : Nat), s.cfg.legal = true →
    Sys2Proof.core.run n s = .next (after n s) ∧ (after n s).cfg = s.cfg

/-! ## Runs: the queue and the lock -/

/-- R59: first in, first out, exactly once. What was queued, followed by what is pushed, is what is popped, followed by
what is left, in any run without a reset. From an empty queue the popped symbols are a prefix of the pushed ones. -/
def Obligations.QueueDeliversExactlyOnceInOrder : Prop :=
  ∀ (s : State) (n : Nat), s.cfg.legal = true → noReset n s →
    s.q ++ pushed n s = popped n s ++ (after n s).q ∧ (s.q = [] → popped n s <+: pushed n s)

/-- R129, R60: the sequencer pushes exactly the expansions of the transferred bytes, in their order. -/
def Obligations.PushedSymbolsAreTheEncodedBytes : Prop :=
  ∀ (s : State) (n : Nat), s.cfg.legal = true → noReset n s →
    s.seq ++ (accepted n s).flatMap enc = pushed n s ++ (after n s).seq

/-- R153: messages never interleave. From the cycle after a grant to producer `p` until the release, every transferred
byte comes from `p`'s port, and the symbols pushed are exactly the expansions of these bytes, in order. The message's
last byte, and no byte before it, carries `in_last`. While the lock is free nothing is pushed. -/
def Obligations.MessagesNeverInterleave : Prop :=
  (∀ s : State, s.owner = none → s.pushNow = none ∧ s.acceptNow = none) ∧
  ∀ (s : State) (p n : Nat), s.cfg.legal = true → s.owner = some p → s.seq = [] → noReset n s →
    (∀ k, k < n → (after k s).owner = some p) → (after n s).owner = none →
    pushed n s = (accepted n s).flatMap enc ∧
    (∀ k b, k < n → (after k s).acceptNow = some b →
      ((after k s).port p).valid = true ∧ ((after k s).port p).byte = b) ∧
    ∃ k, k < n ∧ (after k s).acceptNow ≠ none ∧ ((after k s).port p).last = true ∧
      ∀ j, j < n → j ≠ k → (after j s).acceptNow ≠ none → j < k ∧ ((after j s).port p).last = false

/-- R236: a byte with `n` symbols, accepted in one cycle, is pushed in the next `n` cycles when the queue has room in
each of them, and after these the sequencer is empty: the port is ready again, or the lock is released. -/
def Obligations.AcceptedByteIsPushedWithoutPause : Prop :=
  ∀ (s : State) (p : Nat), s.cfg.legal = true → s.owner = some p → s.transfers p = true →
    noReset ((enc (s.port p).byte).length + 1) s →
    (∀ k, 1 ≤ k → k ≤ (enc (s.port p).byte).length → (after k s).q.length < s.cfg.depth) →
    (∀ k, k < (enc (s.port p).byte).length → (after (k + 1) s).pushNow = (enc (s.port p).byte)[k]?) ∧
    (after ((enc (s.port p).byte).length + 1) s).seq = [] ∧
    (after ((enc (s.port p).byte).length + 1) s).owner = (if (s.port p).last = true then none else some p)

/-! ## Runs: the waveform -/

/-- R181 to R184, R189: the life of one symbol, popped in the cycle of `s`, from IDLE or at a gap's deadline. In the
`d1` cycles after its pop the Flasher is in HOLD and the pin is high exactly for DOT and DASH; in the next `d2` cycles
it is in GAP and the pin is low. The deadlines are `base + d1` and `base + d1 + d2`. The Flasher takes no symbol in
between, and takes the next one, or goes to IDLE, in exactly the cycle `d1 + d2` after the pop. -/
def Obligations.SymbolHasItsWaveform : Prop :=
  ∀ (s : State) (x : Sym), s.Inv → s.popNow = some x → noReset (d1 s.cfg x + d2 s.cfg + 1) s →
    (∀ k, 1 ≤ k → k ≤ d1 s.cfg x →
      (after k s).fstate = .hold ∧ (after k s).pin = x.isPulse ∧ (after k s).popNow = none
        ∧ (after k s).now = (s.base + d1 s.cfg x) % 2 ^ s.cfg.timeWidth) ∧
    (∀ k, d1 s.cfg x < k → k ≤ d1 s.cfg x + d2 s.cfg →
      (after k s).fstate = .gap ∧ (after k s).pin = false
        ∧ (k < d1 s.cfg x + d2 s.cfg → (after k s).popNow = none)
        ∧ (after k s).now = (s.base + d1 s.cfg x + d2 s.cfg) % 2 ^ s.cfg.timeWidth) ∧
    (after (d1 s.cfg x + d2 s.cfg) s).popNow = (after (d1 s.cfg x + d2 s.cfg) s).q.head? ∧
    (after (d1 s.cfg x + d2 s.cfg + 1) s).fstate =
      (if (after (d1 s.cfg x + d2 s.cfg) s).q = [] then .idle else .hold)

/-- R186: no drift. In a run that begins with a pop and in which the Flasher does not go to IDLE, it takes its next
symbol, or runs out, at exactly the sum of the periods of the symbols popped so far, whatever cycles they were pushed
in. -/
def Obligations.ContinuousStreamDoesNotDrift : Prop :=
  ∀ (s : State) (n : Nat), s.Inv → s.popNow ≠ none → noReset n s → 0 < n →
    (∀ k, 1 ≤ k → k ≤ n → (after k s).fstate ≠ .idle) →
    ((after n s).mayPop = true → n = periods s.cfg (popped n s))

/-- R192: the gaps on the wire, with no underrun. Between two pulse symbols that follow each other in the queue the pin
is low for 1 unit; with an EOC between them, for 3 units; with an EOC and `m` spaces between them, for `3 + 4 * m`
units, which is 7 for one space. -/
def Obligations.GapsOnTheWire : Prop :=
  ∀ (s : State) (x y : Sym) (mid rest : List Sym) (low : Nat), s.Inv → s.popNow = some x →
    x.isPulse = true → y.isPulse = true → s.q = x :: (mid ++ y :: rest) →
    ((mid = [] ∧ low = 1) ∨ ∃ m, mid = .eoc :: List.replicate m .space ∧ low = 3 + 4 * m) →
    noReset (d1 s.cfg x + low * s.cfg.unitTicks + 1) s →
    (∀ k, 1 ≤ k → k ≤ d1 s.cfg x → (after k s).pin = true) ∧
    (∀ k, d1 s.cfg x < k → k ≤ d1 s.cfg x + low * s.cfg.unitTicks → (after k s).pin = false) ∧
    (after (d1 s.cfg x + low * s.cfg.unitTicks + 1) s).pin = true

/-- R214, R148: while the queue is not empty, the Flasher pops within `4 * UNIT_TICKS` cycles. -/
def Obligations.NonEmptyQueueIsPoppedInTime : Prop :=
  ∀ s : State, s.Inv → s.q ≠ [] → noReset (4 * s.cfg.unitTicks) s →
    ∃ k, k < 4 * s.cfg.unitTicks ∧ (after k s).popNow = s.q.head?

/-- R22, R209: no output depends on the absolute time. Shifting the timer and the cursor together leaves every output of
every later cycle as it was, whatever the inputs, resets among them. -/
def Obligations.OutputsDoNotDependOnAbsoluteTime : Prop :=
  ∀ (s : State) (d n : Nat), s.cfg.legal = true →
    (after n (s.shiftTime d)).outputs = (after n s).outputs

/-- R23, R187: in IDLE the cursor is not read before a rebase overwrites it. Its value changes no output of any later
cycle: after an idle period no earlier deadline matters. -/
def Obligations.CursorIsNotReadInIdle : Prop :=
  ∀ (s : State) (v n : Nat), s.cfg.legal = true → s.fstate = .idle →
    (after n { s with now := v }).outputs = (after n s).outputs

/-- R30: `seq_last` is not read while the sequencer is empty: its stale value changes no output of any later cycle. -/
def Obligations.StaleLastFlagIsNotRead : Prop :=
  ∀ (s : State) (v : Bool) (n : Nat), s.cfg.legal = true → s.seq = [] →
    (after n { s with seqLast := v }).outputs = (after n s).outputs
end

