-- ==== Sys2Proof/Laws/PerInstr.lean ====
section
/-! SUPPORT. Decode of encode, one lemma for each constructor of Instr. -/

namespace Sys2Proof.Laws.RoundTrip

/-- Decoding the code of a well-formed instruction gives it back. -/
def Statement (i : Instr) : Prop := i.wf = true → decode (encode i) = i

theorem letterA (lower : Bool) : Statement (.letterA lower) := fun _ => by cases lower <;> rfl
theorem letterB (lower : Bool) : Statement (.letterB lower) := fun _ => by cases lower <;> rfl
theorem letterC (lower : Bool) : Statement (.letterC lower) := fun _ => by cases lower <;> rfl
theorem letterD (lower : Bool) : Statement (.letterD lower) := fun _ => by cases lower <;> rfl
theorem letterE (lower : Bool) : Statement (.letterE lower) := fun _ => by cases lower <;> rfl
theorem letterF (lower : Bool) : Statement (.letterF lower) := fun _ => by cases lower <;> rfl
theorem letterG (lower : Bool) : Statement (.letterG lower) := fun _ => by cases lower <;> rfl
theorem letterH (lower : Bool) : Statement (.letterH lower) := fun _ => by cases lower <;> rfl
theorem letterI (lower : Bool) : Statement (.letterI lower) := fun _ => by cases lower <;> rfl
theorem letterJ (lower : Bool) : Statement (.letterJ lower) := fun _ => by cases lower <;> rfl
theorem letterK (lower : Bool) : Statement (.letterK lower) := fun _ => by cases lower <;> rfl
theorem letterL (lower : Bool) : Statement (.letterL lower) := fun _ => by cases lower <;> rfl
theorem letterM (lower : Bool) : Statement (.letterM lower) := fun _ => by cases lower <;> rfl
theorem letterN (lower : Bool) : Statement (.letterN lower) := fun _ => by cases lower <;> rfl
theorem letterO (lower : Bool) : Statement (.letterO lower) := fun _ => by cases lower <;> rfl
theorem letterP (lower : Bool) : Statement (.letterP lower) := fun _ => by cases lower <;> rfl
theorem letterQ (lower : Bool) : Statement (.letterQ lower) := fun _ => by cases lower <;> rfl
theorem letterR (lower : Bool) : Statement (.letterR lower) := fun _ => by cases lower <;> rfl
theorem letterS (lower : Bool) : Statement (.letterS lower) := fun _ => by cases lower <;> rfl
theorem letterT (lower : Bool) : Statement (.letterT lower) := fun _ => by cases lower <;> rfl
theorem letterU (lower : Bool) : Statement (.letterU lower) := fun _ => by cases lower <;> rfl
theorem letterV (lower : Bool) : Statement (.letterV lower) := fun _ => by cases lower <;> rfl
theorem letterW (lower : Bool) : Statement (.letterW lower) := fun _ => by cases lower <;> rfl
theorem letterX (lower : Bool) : Statement (.letterX lower) := fun _ => by cases lower <;> rfl
theorem letterY (lower : Bool) : Statement (.letterY lower) := fun _ => by cases lower <;> rfl
theorem letterZ (lower : Bool) : Statement (.letterZ lower) := fun _ => by cases lower <;> rfl
theorem spaceByte : Statement .spaceByte := fun _ => rfl

/-- The default row is reached exactly for the bytes of class IGNORE: no other row matches one. -/
theorem decodeByte8_of_ignore : ∀ b : Byte, byteClass b = .ignore → decodeByte8 b = .ignore b := by decide

theorem ignore (byte : Byte) : Statement (.ignore byte) := fun h =>
  decodeByte8_of_ignore byte (by simpa [Instr.wf] using h)

theorem dot : Statement .dot := fun _ => rfl
theorem dash : Statement .dash := fun _ => rfl
theorem eoc : Statement .eoc := fun _ => rfl
theorem space : Statement .space := fun _ => rfl

end Sys2Proof.Laws.RoundTrip
end

