-- ==== Sys2Proof/Laws/Encoding.lean ====
section
/-! SUPPORT. Laws of the decoder, the ROM and the expansion. -/

namespace Sys2Proof.Laws

/-- What the opcode table says of two rows that match one byte: their patterns agree where both masks look. -/
theorem hits_both {a b : ByteRow} {x : Byte} (ha : a.hits x = true) (hb : b.hits x = true) :
    a.pattern &&& b.mask = b.pattern &&& a.mask := by
  simp only [ByteRow.hits, beq_iff_eq] at ha hb
  rw [← ha, ← hb, BitVec.and_assoc, BitVec.and_assoc, BitVec.and_comm a.mask]

/-- No two rows of format BYTE8 match the same byte (R91). -/
theorem byteRows_disjoint :
    byteRows.Pairwise fun a b => ∀ x : Byte, ¬ (a.hits x = true ∧ b.hits x = true) := by
  have h : byteRows.Pairwise fun a b => a.pattern &&& b.mask ≠ b.pattern &&& a.mask := by decide
  exact h.imp fun hne x hx => hne (hits_both hx.1 hx.2)

/-- The ROM holds no reserved word (R84): the expansion of a ROM word is always `ENC`. -/
theorem expand_memRead : ∀ b : Byte, expand (memRead b) = .ok (enc b) := by decide

/-- Every instruction of format BYTE8 is accepted by the byte of its code. -/
theorem exec_byte8 (i : Instr) (h : i.format = .byte8) :
    ∃ b, encode i = .byte8 b ∧ ∀ s, Machine.exec i s = Machine.acceptByte b s := by
  cases i <;> first | exact ⟨_, rfl, fun _ => rfl⟩ | exact absurd h (by decide)

/-- Executing the decoded byte accepts that byte. -/
theorem exec_decodeByte8 (b : Byte) (s : Machine.State) :
    Machine.exec (decodeByte8 b) s = Machine.acceptByte b s := by
  have hf : ∀ b : Byte, (decodeByte8 b).format = .byte8 ∧ encode (decodeByte8 b) = .byte8 b := by decide
  obtain ⟨c, hc, he⟩ := exec_byte8 _ (hf b).1
  have : c = b := by simpa [(hf b).2, eq_comm] using hc
  exact this ▸ he s

/-- Every instruction of format SYM2 is the pop of the symbol of its code. -/
theorem exec_sym2 (i : Instr) (h : i.format = .sym2) :
    ∃ x : Sym, decodeSym2 x.code = i ∧ ∀ s, Machine.exec i s = Machine.popSym x s := by
  cases i
  case dot => exact ⟨.dot, rfl, fun _ => rfl⟩
  case dash => exact ⟨.dash, rfl, fun _ => rfl⟩
  case eoc => exact ⟨.eoc, rfl, fun _ => rfl⟩
  case space => exact ⟨.space, rfl, fun _ => rfl⟩
  all_goals exact absurd h (by decide +revert)

/-- Executing the decoded code of a symbol pops that symbol. -/
theorem exec_decodeSym2 (x : Sym) (s : Machine.State) :
    Machine.exec (decodeSym2 x.code) s = Machine.popSym x s := by
  cases x <;> rfl

end Sys2Proof.Laws
end

