-- ==== Sys2Proof/Laws/State.lean ====
section
/-! SUPPORT. One lemma for each field and each update of the state, and what the updates leave of the derived reads. -/

namespace Sys2Proof.Machine

variable (s : State)

@[simp] theorem State.grantTo_cfg (g : Nat) : (s.grantTo g).cfg = s.cfg := rfl
@[simp] theorem State.grantTo_time (g : Nat) : (s.grantTo g).time = s.time := rfl
@[simp] theorem State.grantTo_now (g : Nat) : (s.grantTo g).now = s.now := rfl
@[simp] theorem State.grantTo_fstate (g : Nat) : (s.grantTo g).fstate = s.fstate := rfl
@[simp] theorem State.grantTo_pin (g : Nat) : (s.grantTo g).pin = s.pin := rfl
@[simp] theorem State.grantTo_q (g : Nat) : (s.grantTo g).q = s.q := rfl
@[simp] theorem State.grantTo_owner (g : Nat) : (s.grantTo g).owner = some g := rfl
@[simp] theorem State.grantTo_rrLast (g : Nat) : (s.grantTo g).rrLast = g := rfl
@[simp] theorem State.grantTo_seq (g : Nat) : (s.grantTo g).seq = s.seq := rfl
@[simp] theorem State.grantTo_seqLast (g : Nat) : (s.grantTo g).seqLast = s.seqLast := rfl
@[simp] theorem State.grantTo_inputs (g : Nat) : (s.grantTo g).inputs = s.inputs := rfl
@[simp] theorem State.grantTo_cycle (g : Nat) : (s.grantTo g).cycle = s.cycle := rfl

@[simp] theorem State.release_cfg : (s.release).cfg = s.cfg := rfl
@[simp] theorem State.release_time : (s.release).time = s.time := rfl
@[simp] theorem State.release_now : (s.release).now = s.now := rfl
@[simp] theorem State.release_fstate : (s.release).fstate = s.fstate := rfl
@[simp] theorem State.release_pin : (s.release).pin = s.pin := rfl
@[simp] theorem State.release_q : (s.release).q = s.q := rfl
@[simp] theorem State.release_owner : (s.release).owner = none := rfl
@[simp] theorem State.release_rrLast : (s.release).rrLast = s.rrLast := rfl
@[simp] theorem State.release_seq : (s.release).seq = s.seq := rfl
@[simp] theorem State.release_seqLast : (s.release).seqLast = s.seqLast := rfl
@[simp] theorem State.release_inputs : (s.release).inputs = s.inputs := rfl
@[simp] theorem State.release_cycle : (s.release).cycle = s.cycle := rfl

@[simp] theorem State.loadSeq_cfg (syms : List Sym) (last : Bool) : (s.loadSeq syms last).cfg = s.cfg := rfl
@[simp] theorem State.loadSeq_time (syms : List Sym) (last : Bool) : (s.loadSeq syms last).time = s.time := rfl
@[simp] theorem State.loadSeq_now (syms : List Sym) (last : Bool) : (s.loadSeq syms last).now = s.now := rfl
@[simp] theorem State.loadSeq_fstate (syms : List Sym) (last : Bool) : (s.loadSeq syms last).fstate = s.fstate := rfl
@[simp] theorem State.loadSeq_pin (syms : List Sym) (last : Bool) : (s.loadSeq syms last).pin = s.pin := rfl
@[simp] theorem State.loadSeq_q (syms : List Sym) (last : Bool) : (s.loadSeq syms last).q = s.q := rfl
@[simp] theorem State.loadSeq_owner (syms : List Sym) (last : Bool) : (s.loadSeq syms last).owner = s.owner := rfl
@[simp] theorem State.loadSeq_rrLast (syms : List Sym) (last : Bool) : (s.loadSeq syms last).rrLast = s.rrLast := rfl
@[simp] theorem State.loadSeq_seq (syms : List Sym) (last : Bool) : (s.loadSeq syms last).seq = syms := rfl
@[simp] theorem State.loadSeq_seqLast (syms : List Sym) (last : Bool) : (s.loadSeq syms last).seqLast = last := rfl
@[simp] theorem State.loadSeq_inputs (syms : List Sym) (last : Bool) : (s.loadSeq syms last).inputs = s.inputs := rfl
@[simp] theorem State.loadSeq_cycle (syms : List Sym) (last : Bool) : (s.loadSeq syms last).cycle = s.cycle := rfl

@[simp] theorem State.dropSeq_cfg : (s.dropSeq).cfg = s.cfg := rfl
@[simp] theorem State.dropSeq_time : (s.dropSeq).time = s.time := rfl
@[simp] theorem State.dropSeq_now : (s.dropSeq).now = s.now := rfl
@[simp] theorem State.dropSeq_fstate : (s.dropSeq).fstate = s.fstate := rfl
@[simp] theorem State.dropSeq_pin : (s.dropSeq).pin = s.pin := rfl
@[simp] theorem State.dropSeq_q : (s.dropSeq).q = s.q := rfl
@[simp] theorem State.dropSeq_owner : (s.dropSeq).owner = if s.seq.tail = [] ∧ s.seqLast = true then none else s.owner := rfl
@[simp] theorem State.dropSeq_rrLast : (s.dropSeq).rrLast = s.rrLast := rfl
@[simp] theorem State.dropSeq_seq : (s.dropSeq).seq = s.seq.tail := rfl
@[simp] theorem State.dropSeq_seqLast : (s.dropSeq).seqLast = s.seqLast := rfl
@[simp] theorem State.dropSeq_inputs : (s.dropSeq).inputs = s.inputs := rfl
@[simp] theorem State.dropSeq_cycle : (s.dropSeq).cycle = s.cycle := rfl

@[simp] theorem State.startSym_cfg (x : Sym) : (s.startSym x).cfg = s.cfg := rfl
@[simp] theorem State.startSym_time (x : Sym) : (s.startSym x).time = s.time := rfl
@[simp] theorem State.startSym_now (x : Sym) : (s.startSym x).now = wrap s.cfg.timeWidth (s.base + d1 s.cfg x) := rfl
@[simp] theorem State.startSym_fstate (x : Sym) : (s.startSym x).fstate = .hold := rfl
@[simp] theorem State.startSym_pin (x : Sym) : (s.startSym x).pin = x.isPulse := rfl
@[simp] theorem State.startSym_q (x : Sym) : (s.startSym x).q = s.q.tail := rfl
@[simp] theorem State.startSym_owner (x : Sym) : (s.startSym x).owner = s.owner := rfl
@[simp] theorem State.startSym_rrLast (x : Sym) : (s.startSym x).rrLast = s.rrLast := rfl
@[simp] theorem State.startSym_seq (x : Sym) : (s.startSym x).seq = s.seq := rfl
@[simp] theorem State.startSym_seqLast (x : Sym) : (s.startSym x).seqLast = s.seqLast := rfl
@[simp] theorem State.startSym_inputs (x : Sym) : (s.startSym x).inputs = s.inputs := rfl
@[simp] theorem State.startSym_cycle (x : Sym) : (s.startSym x).cycle = s.cycle := rfl

@[simp] theorem State.endHold_cfg : (s.endHold).cfg = s.cfg := rfl
@[simp] theorem State.endHold_time : (s.endHold).time = s.time := rfl
@[simp] theorem State.endHold_now : (s.endHold).now = wrap s.cfg.timeWidth (s.now + d2 s.cfg) := rfl
@[simp] theorem State.endHold_fstate : (s.endHold).fstate = .gap := rfl
@[simp] theorem State.endHold_pin : (s.endHold).pin = false := rfl
@[simp] theorem State.endHold_q : (s.endHold).q = s.q := rfl
@[simp] theorem State.endHold_owner : (s.endHold).owner = s.owner := rfl
@[simp] theorem State.endHold_rrLast : (s.endHold).rrLast = s.rrLast := rfl
@[simp] theorem State.endHold_seq : (s.endHold).seq = s.seq := rfl
@[simp] theorem State.endHold_seqLast : (s.endHold).seqLast = s.seqLast := rfl
@[simp] theorem State.endHold_inputs : (s.endHold).inputs = s.inputs := rfl
@[simp] theorem State.endHold_cycle : (s.endHold).cycle = s.cycle := rfl

@[simp] theorem State.goIdle_cfg : (s.goIdle).cfg = s.cfg := rfl
@[simp] theorem State.goIdle_time : (s.goIdle).time = s.time := rfl
@[simp] theorem State.goIdle_now : (s.goIdle).now = s.now := rfl
@[simp] theorem State.goIdle_fstate : (s.goIdle).fstate = .idle := rfl
@[simp] theorem State.goIdle_pin : (s.goIdle).pin = s.pin := rfl
@[simp] theorem State.goIdle_q : (s.goIdle).q = s.q := rfl
@[simp] theorem State.goIdle_owner : (s.goIdle).owner = s.owner := rfl
@[simp] theorem State.goIdle_rrLast : (s.goIdle).rrLast = s.rrLast := rfl
@[simp] theorem State.goIdle_seq : (s.goIdle).seq = s.seq := rfl
@[simp] theorem State.goIdle_seqLast : (s.goIdle).seqLast = s.seqLast := rfl
@[simp] theorem State.goIdle_inputs : (s.goIdle).inputs = s.inputs := rfl
@[simp] theorem State.goIdle_cycle : (s.goIdle).cycle = s.cycle := rfl

@[simp] theorem State.nextInputs_cfg : (s.nextInputs).cfg = s.cfg := rfl
@[simp] theorem State.nextInputs_time : (s.nextInputs).time = s.time := rfl
@[simp] theorem State.nextInputs_now : (s.nextInputs).now = s.now := rfl
@[simp] theorem State.nextInputs_fstate : (s.nextInputs).fstate = s.fstate := rfl
@[simp] theorem State.nextInputs_pin : (s.nextInputs).pin = s.pin := rfl
@[simp] theorem State.nextInputs_q : (s.nextInputs).q = s.q := rfl
@[simp] theorem State.nextInputs_owner : (s.nextInputs).owner = s.owner := rfl
@[simp] theorem State.nextInputs_rrLast : (s.nextInputs).rrLast = s.rrLast := rfl
@[simp] theorem State.nextInputs_seq : (s.nextInputs).seq = s.seq := rfl
@[simp] theorem State.nextInputs_seqLast : (s.nextInputs).seqLast = s.seqLast := rfl
@[simp] theorem State.nextInputs_inputs : (s.nextInputs).inputs = s.inputs.tail := rfl
@[simp] theorem State.nextInputs_cycle : (s.nextInputs).cycle = s.cycle + 1 := rfl

@[simp] theorem State.tick_cfg : (s.tick).cfg = s.cfg := rfl
@[simp] theorem State.tick_time : (s.tick).time = wrap s.cfg.timeWidth (s.time + 1) := rfl
@[simp] theorem State.tick_now : (s.tick).now = s.now := rfl
@[simp] theorem State.tick_fstate : (s.tick).fstate = s.fstate := rfl
@[simp] theorem State.tick_pin : (s.tick).pin = s.pin := rfl
@[simp] theorem State.tick_q : (s.tick).q = s.q := rfl
@[simp] theorem State.tick_owner : (s.tick).owner = s.owner := rfl
@[simp] theorem State.tick_rrLast : (s.tick).rrLast = s.rrLast := rfl
@[simp] theorem State.tick_seq : (s.tick).seq = s.seq := rfl
@[simp] theorem State.tick_seqLast : (s.tick).seqLast = s.seqLast := rfl
@[simp] theorem State.tick_inputs : (s.tick).inputs = s.inputs := rfl
@[simp] theorem State.tick_cycle : (s.tick).cycle = s.cycle := rfl

@[simp] theorem State.takeReset_cfg : (s.takeReset).cfg = s.cfg := rfl
@[simp] theorem State.takeReset_time : (s.takeReset).time = 0 := rfl
@[simp] theorem State.takeReset_now : (s.takeReset).now = 0 := rfl
@[simp] theorem State.takeReset_fstate : (s.takeReset).fstate = .idle := rfl
@[simp] theorem State.takeReset_pin : (s.takeReset).pin = false := rfl
@[simp] theorem State.takeReset_q : (s.takeReset).q = [] := rfl
@[simp] theorem State.takeReset_owner : (s.takeReset).owner = none := rfl
@[simp] theorem State.takeReset_rrLast : (s.takeReset).rrLast = s.cfg.nProd - 1 := rfl
@[simp] theorem State.takeReset_seq : (s.takeReset).seq = [] := rfl
@[simp] theorem State.takeReset_seqLast : (s.takeReset).seqLast = false := rfl
@[simp] theorem State.takeReset_inputs : (s.takeReset).inputs = s.inputs := rfl
@[simp] theorem State.takeReset_cycle : (s.takeReset).cycle = s.cycle := rfl

@[simp] theorem State.pushSym_cfg (p : Option Sym) : (s.pushSym p).cfg = s.cfg := by cases p <;> rfl
@[simp] theorem State.pushSym_time (p : Option Sym) : (s.pushSym p).time = s.time := by cases p <;> rfl
@[simp] theorem State.pushSym_now (p : Option Sym) : (s.pushSym p).now = s.now := by cases p <;> rfl
@[simp] theorem State.pushSym_fstate (p : Option Sym) : (s.pushSym p).fstate = s.fstate := by cases p <;> rfl
@[simp] theorem State.pushSym_pin (p : Option Sym) : (s.pushSym p).pin = s.pin := by cases p <;> rfl
@[simp] theorem State.pushSym_q (p : Option Sym) : (s.pushSym p).q = s.q ++ p.toList := by cases p <;> simp [State.pushSym]
@[simp] theorem State.pushSym_owner (p : Option Sym) : (s.pushSym p).owner = s.owner := by cases p <;> rfl
@[simp] theorem State.pushSym_rrLast (p : Option Sym) : (s.pushSym p).rrLast = s.rrLast := by cases p <;> rfl
@[simp] theorem State.pushSym_seq (p : Option Sym) : (s.pushSym p).seq = s.seq := by cases p <;> rfl
@[simp] theorem State.pushSym_seqLast (p : Option Sym) : (s.pushSym p).seqLast = s.seqLast := by cases p <;> rfl
@[simp] theorem State.pushSym_inputs (p : Option Sym) : (s.pushSym p).inputs = s.inputs := by cases p <;> rfl
@[simp] theorem State.pushSym_cycle (p : Option Sym) : (s.pushSym p).cycle = s.cycle := by cases p <;> rfl

end Sys2Proof.Machine
end

