-- ==== Sys2Proof/Laws/Exec.lean ====
section
/-! SUPPORT. What the shared operations of the meanings can do, once: accepting a byte, and popping a symbol. -/

namespace Sys2Proof.Machine

/-- A port is ready exactly for the lock's holder with an empty sequencer and no reset (R35). -/
theorem State.inReady_iff (s : State) (p : Nat) :
    s.inReady p = true ↔ s.input.rst = false ∧ s.owner = some p ∧ s.seq = [] := by
  simp [State.inReady, and_assoc]

/-- A transfer is a valid byte on a ready port (R142). -/
theorem State.transfers_iff (s : State) (p : Nat) :
    s.transfers p = true ↔ (s.port p).valid = true ∧ s.input.rst = false ∧ s.owner = some p ∧ s.seq = [] := by
  simp [State.transfers, State.inReady_iff]

/-- The state after the holder's byte is accepted (R145, R146). -/
def State.accept (s : State) (b : Byte) (last : Bool) : State :=
  if enc b = [] ∧ last = true then s.release else s.loadSeq (enc b) last

/-- Where the port is ready, the byte is accepted. -/
theorem acceptByte_ready (b : Byte) (s : State) (p : Nat) (h : s.inReady p = true) :
    acceptByte b s = .next (s.accept b (s.port p).last) := by
  have ho := ((s.inReady_iff p).1 h).2.1
  simp only [acceptByte, ho, h, if_true, Laws.expand_memRead, State.accept]
  split <;> rfl

/-- Where no port is ready, the offered byte changes nothing (R149). -/
theorem acceptByte_notReady (b : Byte) (s : State) (h : ∀ p, s.inReady p = false) :
    acceptByte b s = .next s := by
  unfold acceptByte
  split <;> simp [h]

/-- All that accepting a byte can do. -/
theorem acceptByte_cases (b : Byte) (s : State) :
    (acceptByte b s = .next s ∧ ∀ p, s.inReady p = false) ∨
      ∃ p, s.inReady p = true ∧ acceptByte b s = .next (s.accept b (s.port p).last) := by
  by_cases h : ∃ p, s.inReady p = true
  · obtain ⟨p, hp⟩ := h
    exact .inr ⟨p, hp, acceptByte_ready b s p hp⟩
  · have h' : ∀ p, s.inReady p = false := by simpa using h
    exact .inl ⟨acceptByte_notReady b s h', h'⟩

/-- Accepting a byte writes only the sequencer, and the lock where it releases it. -/
theorem accept_frame (s : State) (b : Byte) (last : Bool) :
    (s.accept b last).cfg = s.cfg ∧ (s.accept b last).time = s.time ∧ (s.accept b last).now = s.now
      ∧ (s.accept b last).fstate = s.fstate ∧ (s.accept b last).pin = s.pin ∧ (s.accept b last).q = s.q
      ∧ (s.accept b last).rrLast = s.rrLast ∧ (s.accept b last).inputs = s.inputs
      ∧ (s.accept b last).cycle = s.cycle
      ∧ ((s.accept b last).owner = s.owner ∨ (s.accept b last).owner = none) := by
  unfold State.accept
  split <;> simp

/-- All that popping a symbol can do. -/
theorem popSym_cases (x : Sym) (s : State) :
    (popSym x s = .next (s.startSym x) ∧ s.mayPop = true ∧ s.q.head? = some x) ∨
      (popSym x s = .next s ∧ ¬ (s.mayPop = true ∧ s.q.head? = some x)) := by
  unfold popSym
  split
  · next h => exact .inl ⟨rfl, h⟩
  · next h => exact .inr ⟨rfl, h⟩

/-- A symbol at the head is popped when the Flasher takes one. -/
theorem popSym_start (x : Sym) (rest : List Sym) (s : State) (h : s.mayPop = true) (hq : s.q = x :: rest) :
    popSym x s = .next (s.startSym x) := by
  simp [popSym, h, hq]

/-- In IDLE the Flasher takes a symbol, and deadlines count from `time` (R175). -/
theorem mayPop_idle (s : State) (h : s.fstate = .idle) : s.mayPop = true ∧ s.base = s.time := by
  simp [State.mayPop, State.base, h]

/-- In GAP the Flasher takes a symbol at the deadline, and deadlines count from `now` (R178). -/
theorem mayPop_gap (s : State) (h : s.fstate = .gap) : s.mayPop = s.dl ∧ s.base = s.now := by
  simp [State.mayPop, State.base, h]

/-- In HOLD the Flasher takes no symbol. -/
theorem mayPop_hold (s : State) (h : s.fstate = .hold) : s.mayPop = false := by
  simp [State.mayPop, h]

end Sys2Proof.Machine
end

