-- ==== Sys2Proof/Laws/Units.lean ====
section
/-! SUPPORT. What the ingest unit, the Flasher and one step do, once, as functions of the start-of-cycle state. -/

namespace Sys2Proof.Machine

/-! ## The ingest unit -/

/-- The state after the ingest unit's action, without the push. -/
def State.ingested (s : State) : State :=
  match s.owner with
  | none =>
    match s.grantee with
    | none => s
    | some g => s.grantTo g
  | some p =>
    match s.seq with
    | [] => if s.transfers p then s.accept (s.port p).byte (s.port p).last else s
    | _ :: _ => if s.hasRoom then s.dropSeq else s

/-- The ingest unit always goes on. -/
theorem ingestStep_eq (s : State) : ingestStep s = .next s.ingested := by
  unfold ingestStep State.ingested
  cases ho : s.owner with
  | none => cases s.grantee <;> rfl
  | some p =>
    cases s.seq with
    | nil =>
      by_cases h : s.transfers p = true
      · simp only [h, if_true, Laws.exec_decodeByte8]
        exact acceptByte_ready _ s _ ((s.inReady_iff p).2 ((s.transfers_iff p).1 h).2)
      · simp only [h]; rfl
    | cons x xs => by_cases h : s.hasRoom = true <;> simp [h]

/-- The ingest unit writes only the lock, the round-robin pointer and the sequencer (R37). -/
theorem ingested_frame (s : State) :
    s.ingested.cfg = s.cfg ∧ s.ingested.time = s.time ∧ s.ingested.now = s.now ∧ s.ingested.fstate = s.fstate
      ∧ s.ingested.pin = s.pin ∧ s.ingested.q = s.q ∧ s.ingested.inputs = s.inputs
      ∧ s.ingested.cycle = s.cycle := by
  unfold State.ingested
  split
  · split <;> simp
  · split
    · split
      · have h := accept_frame s (s.port ‹_›).byte (s.port ‹_›).last
        simp [h]
      · simp
    · split <;> simp

/-- With the lock free, the unit grants it or does nothing (R143). -/
theorem ingested_free (s : State) (h : s.owner = none) :
    s.ingested = match s.grantee with | none => s | some g => s.grantTo g := by
  unfold State.ingested
  rw [h]

/-- With the lock held and the sequencer empty, the unit accepts the byte that transfers (R145, R146). -/
theorem ingested_ready (s : State) (p : Nat) (h : s.owner = some p) (hs : s.seq = []) :
    s.ingested = if s.transfers p then s.accept (s.port p).byte (s.port p).last else s := by
  unfold State.ingested
  rw [h, hs]

/-- With symbols in the sequencer, the unit drops the pushed one or stalls (R147, R148). -/
theorem ingested_busy (s : State) (p : Nat) (h : s.owner = some p) (hs : s.seq ≠ []) :
    s.ingested = if s.hasRoom then s.dropSeq else s := by
  obtain ⟨x, xs, hx⟩ := List.exists_cons_of_ne_nil hs
  unfold State.ingested
  rw [h, hx]

/-! ## The Flasher -/

/-- The state after the Flasher's action. -/
def State.flashed (s : State) : State :=
  match s.fstate with
  | .idle =>
    match s.q with
    | [] => s
    | x :: _ => s.startSym x
  | .hold => if s.dl then s.endHold else s
  | .gap =>
    if s.dl then
      match s.q with
      | [] => s.goIdle
      | x :: _ => s.startSym x
    else s

/-- The Flasher always goes on. -/
theorem flasherStep_eq (s : State) : flasherStep s = .next s.flashed := by
  unfold flasherStep State.flashed
  cases hf : s.fstate with
  | idle =>
    cases hq : s.q with
    | nil => rfl
    | cons x xs => exact (Laws.exec_decodeSym2 x s).trans (popSym_start _ _ _ (mayPop_idle s hf).1 hq)
  | hold => by_cases h : s.dl = true <;> simp [h]
  | gap =>
    by_cases h : s.dl = true
    · simp only [h, if_true]
      cases hq : s.q with
      | nil => rfl
      | cons x xs =>
        exact (Laws.exec_decodeSym2 x s).trans (popSym_start _ _ _ ((mayPop_gap s hf).1.trans h) hq)
    · simp [h]

/-- The Flasher writes only the queue, the cursor, the pin and its control state (R37). -/
theorem flashed_frame (s : State) :
    s.flashed.cfg = s.cfg ∧ s.flashed.time = s.time ∧ s.flashed.owner = s.owner ∧ s.flashed.rrLast = s.rrLast
      ∧ s.flashed.seq = s.seq ∧ s.flashed.seqLast = s.seqLast ∧ s.flashed.inputs = s.inputs
      ∧ s.flashed.cycle = s.cycle := by
  unfold State.flashed
  repeat' split
  all_goals simp

/-- What the Flasher writes depends only on its own registers, the timer, the queue and the parameters. -/
theorem flashed_congr {s t : State} (hc : t.cfg = s.cfg) (ht : t.time = s.time) (hn : t.now = s.now)
    (hf : t.fstate = s.fstate) (hp : t.pin = s.pin) (hq : t.q = s.q) :
    t.flashed.now = s.flashed.now ∧ t.flashed.fstate = s.flashed.fstate ∧ t.flashed.pin = s.flashed.pin
      ∧ t.flashed.q = s.flashed.q := by
  have hd : t.dl = s.dl := by simp [State.dl, hc, ht, hn]
  have hb : t.base = s.base := by simp [State.base, hf, ht, hn]
  unfold State.flashed
  rw [hf, hd, hq]
  repeat' split
  all_goals simp [hc, hb, hn, hf, hp, hq]

/-- In IDLE the Flasher waits or pops (R175, R176). -/
theorem flashed_idle (s : State) (h : s.fstate = .idle) :
    s.flashed = match s.q with | [] => s | x :: _ => s.startSym x := by
  unfold State.flashed
  rw [h]

/-- In HOLD the Flasher waits or ends the first phase (R177, R180). -/
theorem flashed_hold (s : State) (h : s.fstate = .hold) :
    s.flashed = if s.dl then s.endHold else s := by
  unfold State.flashed
  rw [h]

/-- In GAP the Flasher waits, pops, or goes to IDLE (R178 to R180). -/
theorem flashed_gap (s : State) (h : s.fstate = .gap) :
    s.flashed = if s.dl then (match s.q with | [] => s.goIdle | x :: _ => s.startSym x) else s := by
  unfold State.flashed
  rw [h]

/-- The Flasher starts the symbol that is popped (R175, R178). -/
theorem flashed_pop (s : State) (x : Sym) (h : s.popNow = some x) : s.flashed = s.startSym x := by
  unfold State.popNow at h
  split at h
  · next hm =>
    have hm' : s.mayPop = true := by simp at hm; exact hm.2
    obtain ⟨rest, hq⟩ : ∃ rest, s.q = x :: rest := by
      cases hq : s.q with
      | nil => simp [hq] at h
      | cons y ys => exact ⟨ys, by simpa [hq] using h⟩
    cases hf : s.fstate with
    | idle => rw [flashed_idle s hf, hq]
    | hold => rw [mayPop_hold s hf] at hm'; cases hm'
    | gap => rw [flashed_gap s hf, hq, ← (mayPop_gap s hf).1, hm']; rfl
  · cases h

/-- The queue after the Flasher: without its head if one was popped (R150). -/
theorem flashed_q (s : State) (hr : s.input.rst = false) :
    s.flashed.q = if s.popNow.isSome then s.q.tail else s.q := by
  unfold State.flashed State.popNow State.mayPop
  cases hf : s.fstate with
  | idle => cases hq : s.q <;> simp [hr, hq]
  | hold => by_cases h : s.dl = true <;> simp [h]
  | gap =>
    by_cases h : s.dl = true
    · cases hq : s.q <;> simp [h, hr, hq]
    · simp [h]

/-- Without a reset, what is pushed is what the sequencer offers to a queue with room (R147). -/
theorem pushNow_noReset (s : State) (hr : s.input.rst = false) : s.pushNow = s.enqSym := by
  simp [State.pushNow, hr]

/-! ## One step -/

/-- The state in the next cycle, in a cycle without a reset. -/
def State.cycled (s : State) : State := ((s.ingested.flashed).pushSym s.enqSym).tick.nextInputs

/-- One step with legal parameters: reset, or both units' actions. -/
theorem step_eq (s : State) (h : s.cfg.legal = true) :
    step s = .next (if s.input.rst then s.takeReset.nextInputs else s.cycled) := by
  unfold step runCycle State.cycled
  simp only [h, if_true, ingestStep_eq, flasherStep_eq, thenDo]
  split <;> simp_all

/-- A step goes on only with legal parameters. -/
theorem legal_of_step {s t : State} (h : step s = .next t) : s.cfg.legal = true := by
  unfold step runCycle at h
  split at h
  · assumption
  · cases h

/-- A step with illegal parameters is refused (D25). -/
theorem step_illegal (s : State) (h : ¬ s.cfg.legal = true) : step s = .refused .illegalConfig := by
  simp [step, runCycle, h]

/-- All that a step which goes on can be. -/
theorem step_cases {s t : State} (h : step s = .next t) :
    s.cfg.legal = true ∧
      ((s.input.rst = true ∧ t = s.takeReset.nextInputs) ∨ (s.input.rst = false ∧ t = s.cycled)) := by
  have hl := legal_of_step h
  rw [step_eq s hl] at h
  cases h
  refine ⟨hl, ?_⟩
  cases hr : s.input.rst
  · exact .inr ⟨rfl, by simp⟩
  · exact .inl ⟨rfl, by simp⟩

/-- The lock and the sequencer after a cycle come from the ingest unit alone. -/
theorem cycled_ingest (s : State) :
    s.cycled.owner = s.ingested.owner ∧ s.cycled.rrLast = s.ingested.rrLast ∧ s.cycled.seq = s.ingested.seq
      ∧ s.cycled.seqLast = s.ingested.seqLast := by
  have h := flashed_frame s.ingested
  simp [State.cycled, h]

/-- The Flasher's registers after a cycle come from the Flasher on the start-of-cycle state alone. -/
theorem cycled_flasher (s : State) :
    s.cycled.now = s.flashed.now ∧ s.cycled.fstate = s.flashed.fstate ∧ s.cycled.pin = s.flashed.pin
      ∧ s.cycled.q = s.flashed.q ++ s.enqSym.toList := by
  obtain ⟨hc, ht, hn, hf, hp, hq, _⟩ := ingested_frame s
  obtain ⟨h1, h2, h3, h4⟩ := flashed_congr hc ht hn hf hp hq
  simp [State.cycled, h1, h2, h3, h4]

/-- The rest of the state after a cycle. -/
theorem cycled_rest (s : State) :
    s.cycled.cfg = s.cfg ∧ s.cycled.time = wrap s.cfg.timeWidth (s.time + 1) ∧ s.cycled.inputs = s.inputs.tail
      ∧ s.cycled.cycle = s.cycle + 1 := by
  have hi := ingested_frame s
  have hf := flashed_frame s.ingested
  simp [State.cycled, hi, hf]

/-- The parameters are the same in every step. -/
theorem step_cfg {s t : State} (h : step s = .next t) : t.cfg = s.cfg := by
  obtain ⟨_, ⟨_, rfl⟩ | ⟨_, rfl⟩⟩ := step_cases h
  · simp
  · exact (cycled_rest s).1

/-! ## Runs -/

theorem nextState_of_step {s t : State} (h : step s = .next t) : s.nextState = t := by
  simp [State.nextState, h]

theorem nextState_cycled (s : State) (hl : s.cfg.legal = true) (hr : s.input.rst = false) :
    s.nextState = s.cycled :=
  nextState_of_step (by simp [step_eq s hl, hr])

theorem nextState_cfg (s : State) : s.nextState.cfg = s.cfg := by
  unfold State.nextState
  split
  · next h => exact step_cfg h
  · rfl
  · rfl

@[simp] theorem after_zero (s : State) : after 0 s = s := rfl

theorem after_succ (n : Nat) (s : State) : after (n + 1) s = after n s.nextState := rfl

theorem after_add (m n : Nat) (s : State) : after (m + n) s = after n (after m s) := by
  induction m generalizing s with
  | zero => simp
  | succ m ih => rw [Nat.succ_add, after_succ, ih, after_succ]

/-- The state one cycle after cycle `n`. -/
theorem after_succ' (n : Nat) (s : State) : after (n + 1) s = (after n s).nextState := by
  rw [after_add n 1]; rfl

theorem after_cfg (n : Nat) (s : State) : (after n s).cfg = s.cfg := by
  induction n with
  | zero => rfl
  | succ n ih => rw [after_succ', nextState_cfg, ih]

theorem noReset_mono {m n : Nat} {s : State} (h : noReset n s) (hmn : m ≤ n) : noReset m s :=
  fun k hk => h k (by omega)

theorem noReset_after {m n : Nat} {s : State} (h : noReset (m + n) s) : noReset n (after m s) := by
  intro k hk
  rw [← after_add]
  exact h (m + k) (by omega)

theorem collect_succ' {α : Type} (f : State → Option α) (n : Nat) (s : State) :
    collect f (n + 1) s = collect f n s ++ (f (after n s)).toList := by
  induction n generalizing s with
  | zero => simp [collect]
  | succ n ih => rw [collect, ih, collect, after_succ, List.append_assoc]

end Sys2Proof.Machine
end

