-- ==== Sys2Proof/Laws/Timer.lean ====
section
/-! SUPPORT. Arithmetic of the timer and the cursor: differences modulo `2^TIME_WIDTH`, and how the time to the deadline
changes in a cycle. -/

namespace Sys2Proof.Machine

/-- A number below twice the modulus, reduced. -/
theorem mod_of_lt_two_mul {x m : Nat} (h : x < 2 * m) : x % m = if x < m then x else x - m := by
  split
  · exact Nat.mod_eq_of_lt ‹_›
  · rw [Nat.mod_eq_sub_mod (by omega), Nat.mod_eq_of_lt (by omega)]

theorem wrap_lt (w n : Nat) : wrap w n < 2 ^ w := Nat.mod_lt _ (Nat.two_pow_pos w)

theorem wrap_of_lt {w n : Nat} (h : n < 2 ^ w) : wrap w n = n := Nat.mod_eq_of_lt h

theorem wrap_wrap_add (w a b : Nat) : wrap w (wrap w a + b) = wrap w (a + b) := by
  simp [wrap]

theorem subMod_lt (w a b : Nat) : subMod w a b < 2 ^ w := Nat.mod_lt _ (Nat.two_pow_pos w)

/-- The difference of two numbers of `w` bits. -/
theorem subMod_of_lt {w a b : Nat} (ha : a < 2 ^ w) (hb : b < 2 ^ w) :
    subMod w a b = if b ≤ a then a - b else a + 2 ^ w - b := by
  unfold subMod
  rw [Nat.mod_eq_of_lt ha, Nat.mod_eq_of_lt hb, mod_of_lt_two_mul (by omega)]
  repeat' split
  all_goals omega

theorem subMod_self (w a : Nat) : subMod w a a = 0 := by
  unfold subMod
  have h : a % 2 ^ w < 2 ^ w := Nat.mod_lt _ (Nat.two_pow_pos w)
  rw [show a % 2 ^ w + (2 ^ w - a % 2 ^ w) = 2 ^ w by omega, Nat.mod_self]

/-- A difference reads its operands modulo `2^w` only. -/
theorem subMod_wrap (w a b : Nat) : subMod w (wrap w a) (wrap w b) = subMod w a b := by
  simp [subMod, wrap]

/-- The difference is that of the integers, modulo `2^w` (R9). -/
theorem subMod_cast (w a b : Nat) : ((subMod w a b : Nat) : Int) = ((a : Int) - b) % (2 ^ w : Nat) := by
  have hb : b % 2 ^ w ≤ 2 ^ w := (Nat.mod_lt _ (Nat.two_pow_pos w)).le
  unfold subMod
  rw [Int.natCast_mod, Int.natCast_add, Int.natCast_sub hb, Int.natCast_mod, Int.natCast_mod]
  rw [show ((a : Int) % (2 ^ w : Nat) + ((2 ^ w : Nat) - (b : Int) % (2 ^ w : Nat)))
      = ((a : Int) % (2 ^ w : Nat) - (b : Int) % (2 ^ w : Nat)) + (2 ^ w : Nat) by ring]
  rw [Int.add_emod_right, ← Int.sub_emod]

/-- Moving both operands by the same amount leaves the difference. -/
theorem subMod_add_right (w a b d : Nat) : subMod w (a + d) (b + d) = subMod w a b := by
  have h : ((subMod w (a + d) (b + d) : Nat) : Int) = (subMod w a b : Nat) := by
    rw [subMod_cast, subMod_cast]
    congr 1
    push_cast
    ring
  exact_mod_cast h

/-- `d` cycles ahead of `t`, seen one cycle later. -/
theorem subMod_ahead {w d : Nat} (t : Nat) (h1 : 1 ≤ d) (hd : d < 2 ^ w) :
    subMod w (wrap w (t + d)) (wrap w (t + 1)) = d - 1 := by
  rw [subMod_wrap, show t + d = (d - 1) + (t + 1) by omega]
  conv => lhs; arg 3; rw [← Nat.zero_add (t + 1)]
  rw [subMod_add_right, subMod_of_lt (by omega) (Nat.two_pow_pos w)]
  simp

/-- A deadline that is ahead comes one cycle nearer. -/
theorem subMod_nearer {w n t : Nat} (hn : n < 2 ^ w) (ht : t < 2 ^ w) (h : 0 < subMod w n t) :
    subMod w n (wrap w (t + 1)) = subMod w n t - 1 := by
  have h' := subMod_of_lt hn ht
  rw [h'] at h ⊢
  rw [wrap, mod_of_lt_two_mul (by omega)]
  by_cases hw : t + 1 < 2 ^ w
  · rw [if_pos hw, subMod_of_lt hn hw]
    split at h <;> repeat' split
    all_goals omega
  · rw [if_neg hw, subMod_of_lt hn (by omega)]
    split at h <;> repeat' split
    all_goals omega

/-- A deadline less than half the range ahead is reached exactly when nothing is left (R174). -/
theorem reached_iff {w t n : Nat} (ht : t < 2 ^ w) (hn : n < 2 ^ w) (hw : 1 ≤ w)
    (h : subMod w n t < 2 ^ (w - 1)) : reached w t n = true ↔ subMod w n t = 0 := by
  have hp : 2 ^ w = 2 * 2 ^ (w - 1) := by
    conv => lhs; rw [show w = (w - 1) + 1 by omega, Nat.pow_succ]
    omega
  rw [subMod_of_lt hn ht] at h ⊢
  unfold reached
  rw [subMod_of_lt ht hn, decide_eq_true_iff]
  split at h <;> repeat' split
  all_goals omega

/-- The two numbers are equal exactly when nothing is left. -/
theorem subMod_eq_zero {w t n : Nat} (ht : t < 2 ^ w) (hn : n < 2 ^ w) : subMod w n t = 0 ↔ t = n := by
  rw [subMod_of_lt hn ht]
  split <;> omega

/-- The legal parameters, as bounds (R6). -/
theorem legal_bounds {c : Config} (h : c.legal = true) :
    1 ≤ c.depth ∧ 1 ≤ c.unitTicks ∧ 2 ≤ c.timeWidth ∧ 3 * c.unitTicks < 2 ^ (c.timeWidth - 1)
      ∧ 1 ≤ c.nProd ∧ 1 ≤ c.fClk := by
  simpa [Config.legal, and_assoc] using h

/-- A first phase lasts one unit or three (R171). -/
theorem d1_bounds (c : Config) (x : Sym) : c.unitTicks ≤ d1 c x ∧ d1 c x ≤ 3 * c.unitTicks := by
  cases x <;> simp [d1, Sym.units, Sym.code] <;> omega

end Sys2Proof.Machine
end

