-- ==== Sys2Proof/Tests/Slice0.lean ====
section
/-! SUPPORT. The model's own tests: the well-formedness smoke, words written out from the spec's encodings, the spec's
one-cycle vectors (95_test_vectors.md, V2 to V5 and V7), and a witness for the hypotheses of each statement. -/

namespace Sys2Proof.Tests

open Sys2Proof.Machine

/-! ## Well formedness: what the checks refuse -/

theorem test_wf_ignore_letter : (Instr.ignore 0x41).wf = false ∧ (Instr.ignore 0x7A).wf = false := by decide
theorem test_wf_ignore_space : (Instr.ignore 0x20).wf = false := by decide
theorem test_wf_ignore_neighbours :
    (Instr.ignore 0x40).wf = true ∧ (Instr.ignore 0x5B).wf = true ∧ (Instr.ignore 0x60).wf = true
      ∧ (Instr.ignore 0x7B).wf = true := by decide

/-- R84's four lines, one reserved word each, and the words next to them that are not reserved. -/
theorem test_reserved_words :
    expand 0b0000_000_11 = .error .reservedRomWord
      ∧ expand 0b0000_000_01 = .error .reservedRomWord ∧ expand 0b0000_101_01 = .error .reservedRomWord
      ∧ expand 0b0000_001_00 = .error .reservedRomWord ∧ expand 0b0001_000_10 = .error .reservedRomWord
      ∧ expand 0b0010_001_01 = .error .reservedRomWord
      ∧ expand 0b0001_001_01 = .ok [.dash, .eoc] ∧ expand 0b1111_100_01 = .ok [.dash, .dash, .dash, .dash, .eoc] := by
  decide

/-- R6: each parameter just outside its legal values, and the smallest legal configuration. -/
theorem test_config_illegal :
    Config.legal ⟨0, 1, 32, 1, 1⟩ = false ∧ Config.legal ⟨1, 0, 32, 1, 1⟩ = false
      ∧ Config.legal ⟨1, 1, 1, 1, 1⟩ = false ∧ Config.legal ⟨1, 1, 2, 1, 1⟩ = false
      ∧ Config.legal ⟨1, 1, 32, 0, 1⟩ = false ∧ Config.legal ⟨1, 1, 32, 1, 0⟩ = false
      ∧ Config.legal ⟨1, 1, 3, 1, 1⟩ = true ∧ Config.legal ⟨1, 2, 4, 1, 1⟩ = true
      ∧ Config.legal ⟨1, 3, 4, 1, 1⟩ = false := by decide

/-! ## Decoding: words written out bit by bit from R80, R86 and R91 -/

theorem test_decode_letters_upper :
    [0b01000001, 0b01000010, 0b01000011, 0b01000100, 0b01000101, 0b01000110, 0b01000111, 0b01001000, 0b01001001,
      0b01001010, 0b01001011, 0b01001100, 0b01001101].map decodeByte8
      = [.letterA false, .letterB false, .letterC false, .letterD false, .letterE false, .letterF false,
        .letterG false, .letterH false, .letterI false, .letterJ false, .letterK false, .letterL false,
        .letterM false] := by decide

theorem test_decode_letters_upper_rest :
    [0b01001110, 0b01001111, 0b01010000, 0b01010001, 0b01010010, 0b01010011, 0b01010100, 0b01010101, 0b01010110,
      0b01010111, 0b01011000, 0b01011001, 0b01011010].map decodeByte8
      = [.letterN false, .letterO false, .letterP false, .letterQ false, .letterR false, .letterS false,
        .letterT false, .letterU false, .letterV false, .letterW false, .letterX false, .letterY false,
        .letterZ false] := by decide

theorem test_decode_letters_lower :
    [0b01100001, 0b01100010, 0b01101101, 0b01101110, 0b01110011, 0b01111010].map decodeByte8
      = [.letterA true, .letterB true, .letterM true, .letterN true, .letterS true, .letterZ true] := by decide

theorem test_decode_space_and_ignored :
    [0b00100000, 0b00000000, 0b00110001, 0b01000000, 0b01011011, 0b01100000, 0b01111011, 0b11000001, 0b11111111].map
        decodeByte8
      = [.spaceByte, .ignore 0x00, .ignore 0x31, .ignore 0x40, .ignore 0x5B, .ignore 0x60, .ignore 0x7B,
        .ignore 0xC1, .ignore 0xFF] := by decide

theorem test_decode_symbols :
    [0b00, 0b01, 0b10, 0b11].map decodeSym2 = [.dot, .dash, .eoc, .space] := by decide

theorem test_decode_table_word :
    decodeTableWord 8 0x41 = some (.letterA false) ∧ decodeTableWord 8 0x20 = some .spaceByte
      ∧ decodeTableWord 8 0x31 = some (.ignore 0x31) ∧ decodeTableWord 2 0b11 = some .space
      ∧ decodeTableWord 8 0b10 = some .eoc ∧ decodeTableWord 8 0x100 = none := by decide

theorem test_encode_bytes :
    encodeBytes (.letterQ true) = [0x71] ∧ encodeBytes .spaceByte = [0x20] ∧ encodeBytes .space = [0x03] := by decide

/-- V1: one row of each length, the space, and an ignored byte. -/
theorem test_enc_rows :
    enc 0x45 = [.dot, .eoc] ∧ enc 0x6E = [.dash, .dot, .eoc] ∧ enc 0x57 = [.dot, .dash, .dash, .eoc]
      ∧ enc 0x71 = [.dash, .dash, .dot, .dash, .eoc] ∧ enc 0x20 = [.space] ∧ enc 0xE1 = [] := by decide

/-! ## V2 and V3 -/

theorem test_reached_vectors :
    reached 4 5 5 = true ∧ reached 4 4 5 = false ∧ reached 4 0 5 = false ∧ reached 4 12 5 = true
      ∧ reached 4 13 5 = false ∧ reached 4 15 1 = false ∧ reached 4 0 1 = false ∧ reached 4 1 1 = true
      ∧ reached 4 1 15 = true ∧ reached 32 0 0 = true ∧ reached 32 4294967295 2 = false
      ∧ reached 32 2 2 = true ∧ reached 32 3 4294967295 = true := by decide

/-- The requests of a list of producers. -/
def reqs (l : List Bool) (p : Nat) : Bool := l.getD p false

theorem test_rrPick_vectors :
    rrPick 1 0 (reqs [true]) = some 0 ∧ rrPick 2 1 (reqs [true, true]) = some 0
      ∧ rrPick 2 0 (reqs [true, true]) = some 1 ∧ rrPick 2 0 (reqs [true, false]) = some 0
      ∧ rrPick 2 1 (reqs [false, true]) = some 1 ∧ rrPick 3 2 (reqs [true, true, true]) = some 0
      ∧ rrPick 3 1 (reqs [true, true, true]) = some 2 ∧ rrPick 3 0 (reqs [true, false, true]) = some 2
      ∧ rrPick 3 0 (reqs [true, false, false]) = some 0 ∧ rrPick 3 1 (reqs [false, true, false]) = some 1
      ∧ rrPick 4 2 (reqs [true, false, true, true]) = some 3 ∧ rrPick 4 3 (reqs [true, true, false, false]) = some 0
      ∧ rrPick 2 0 (reqs [false, false]) = none := by decide

/-! ## V4: the ingest unit and the queue, one cycle -/

/-- The parameters of V4 and V5. -/
def vecCfg : Config := { depth := 2, unitTicks := 2, timeWidth := 4, nProd := 2, fClk := 10 }

/-- The inputs of one cycle, without reset, from what the two ports drive. -/
def drive (p0 p1 : PortIn) : Inputs := { rst := false, ports := [p0, p1] }

/-- A port that only requests. -/
def asks : PortIn := { PortIn.quiet with req := true }

/-- A port that offers a byte. -/
def offers (b : Byte) (last : Bool) : PortIn := { req := true, valid := true, byte := b, last := last }

/-- A start-of-cycle state of V4, with the Flasher in HOLD and its deadline ahead. -/
def ingestRow (owner : Option Nat) (rr : Nat) (seq : List Sym) (seqLast : Bool) (q : List Sym) (i : Inputs) : State :=
  { cfg := vecCfg, time := 0, now := 5, fstate := .hold, pin := false, q := q, owner := owner, rrLast := rr,
    seq := seq, seqLast := seqLast, inputs := [i], cycle := 0 }

/-- The next state, if there is one. -/
def stepped (s : State) : Option State :=
  match step s with
  | .next t => some t
  | .fault _ => none
  | .refused _ => none

/-- The columns of V4 in the next cycle. -/
def ingestCols (s : State) : Option (Option Nat × Nat × List Sym × Bool × List Sym) :=
  (stepped s).map fun t => (t.owner, t.rrLast, t.seq, t.seqLast, t.q)

/-- The outputs `gnt` and `in_ready` in the cycle. -/
def ports (s : State) : List Bool × List Bool := (s.outputs.gnt, s.outputs.inReady)

theorem test_v4_grants :
    ingestCols (ingestRow none 1 [] false [] (drive asks asks)) = some (some 0, 0, [], false, [])
      ∧ ingestCols (ingestRow none 0 [] false [] (drive asks asks)) = some (some 1, 1, [], false, [])
      ∧ ingestCols (ingestRow none 0 [] false [] (drive asks PortIn.quiet)) = some (some 0, 0, [], false, [])
      ∧ ports (ingestRow none 0 [] false [] (drive asks asks)) = ([false, false], [false, false]) := by and_intros <;> decide

/-- Row 4: valid without a request takes no lock. -/
theorem test_v4_valid_without_request :
    ingestCols (ingestRow none 0 [] false []
        (drive { offers 0x41 false with req := false } { offers 0x41 false with req := false }))
      = some (none, 0, [], false, []) := by decide

theorem test_v4_letter :
    ingestCols (ingestRow (some 0) 0 [] false [] (drive (offers 0x41 false) PortIn.quiet))
        = some (some 0, 0, [.dot, .dash, .eoc], false, [])
      ∧ ports (ingestRow (some 0) 0 [] false [] (drive (offers 0x41 false) PortIn.quiet))
        = ([true, false], [true, false]) := by and_intros <;> decide

theorem test_v4_space_byte :
    ingestCols (ingestRow (some 0) 0 [] false [] (drive (offers 0x20 true) PortIn.quiet))
      = some (some 0, 0, [.space], true, []) := by decide

theorem test_v4_ignored_byte :
    ingestCols (ingestRow (some 0) 0 [] true [] (drive (offers 0x31 false) PortIn.quiet))
        = some (some 0, 0, [], false, [])
      ∧ ingestCols (ingestRow (some 0) 0 [] false [] (drive (offers 0x31 true) PortIn.quiet))
        = some (none, 0, [], false, []) := by and_intros <;> decide

/-- Row 9: another port's byte is not taken. -/
theorem test_v4_other_port :
    ingestCols (ingestRow (some 0) 0 [] false [] (drive PortIn.quiet (offers 0x41 true)))
      = some (some 0, 0, [], false, []) := by decide

theorem test_v4_push :
    ingestCols (ingestRow (some 0) 0 [.dot, .dash, .eoc] false [] (drive PortIn.quiet PortIn.quiet))
        = some (some 0, 0, [.dash, .eoc], false, [.dot])
      ∧ ingestCols (ingestRow (some 0) 0 [.eoc] false [.dot] (drive (offers 0x41 false) PortIn.quiet))
        = some (some 0, 0, [], false, [.dot, .eoc])
      ∧ ingestCols (ingestRow (some 0) 0 [.eoc] true [.dot] (drive asks asks))
        = some (none, 0, [], true, [.dot, .eoc]) := by and_intros <;> decide

/-- Rows 13 to 15: a full queue stalls the push, also in a cycle with a pop; push and pop both take effect. -/
theorem test_v4_stall_and_pop :
    ingestCols (ingestRow (some 1) 1 [.dot, .eoc] true [.dash, .dash] (drive PortIn.quiet PortIn.quiet))
        = some (some 1, 1, [.dot, .eoc], true, [.dash, .dash])
      ∧ ingestCols { ingestRow (some 1) 1 [.dot, .eoc] true [.dash, .dash] (drive PortIn.quiet PortIn.quiet) with
          fstate := .gap, now := 0 } = some (some 1, 1, [.dot, .eoc], true, [.dash])
      ∧ ingestCols { ingestRow (some 1) 1 [.eoc] true [.dash] (drive PortIn.quiet PortIn.quiet) with
          fstate := .gap, now := 0 } = some (none, 1, [], true, [.eoc]) := by and_intros <;> decide

/-! ## V5: the Flasher, one cycle -/

/-- A start-of-cycle state of V5, with no producer active. -/
def flashRow (f : FState) (time now : Nat) (pin : Bool) (q : List Sym) : State :=
  { cfg := vecCfg, time := time, now := now, fstate := f, pin := pin, q := q, owner := none, rrLast := 1,
    seq := [], seqLast := false, inputs := [Inputs.quiet], cycle := 0 }

/-- The columns of V5 in the next cycle. -/
def flashCols (s : State) : Option (FState × Nat × Bool × List Sym) :=
  (stepped s).map fun t => (t.fstate, t.now, t.pin, t.q)

theorem test_v5_dot :
    flashCols (flashRow .idle 3 9 false [.dot, .eoc]) = some (.hold, 5, true, [.eoc])
      ∧ flashCols (flashRow .gap 7 7 false [.dot]) = some (.hold, 9, true, []) := by and_intros <;> decide

theorem test_v5_dash :
    flashCols (flashRow .idle 3 9 false [.dash]) = some (.hold, 9, true, [])
      ∧ flashCols (flashRow .idle 15 0 false [.dash]) = some (.hold, 5, true, [])
      ∧ flashCols (flashRow .gap 7 7 false [.dash, .eoc]) = some (.hold, 13, true, [.eoc])
      ∧ flashCols (flashRow .gap 14 14 false [.dash]) = some (.hold, 4, true, []) := by and_intros <;> decide

theorem test_v5_eoc :
    flashCols (flashRow .idle 3 9 false [.eoc]) = some (.hold, 5, false, []) := by decide

theorem test_v5_space :
    flashCols (flashRow .idle 3 9 false [.space]) = some (.hold, 9, false, [])
      ∧ flashCols (flashRow .gap 7 7 false [.space]) = some (.hold, 13, false, []) := by and_intros <;> decide

theorem test_v5_waits_and_ends :
    flashCols (flashRow .idle 3 9 false []) = some (.idle, 9, false, [])
      ∧ flashCols (flashRow .hold 4 5 true [.eoc]) = some (.hold, 5, true, [.eoc])
      ∧ flashCols (flashRow .hold 5 5 true [.eoc]) = some (.gap, 7, false, [.eoc])
      ∧ flashCols (flashRow .hold 5 5 false []) = some (.gap, 7, false, [])
      ∧ flashCols (flashRow .hold 15 15 true []) = some (.gap, 1, false, [])
      ∧ flashCols (flashRow .gap 6 7 false [.dot]) = some (.gap, 7, false, [.dot])
      ∧ flashCols (flashRow .gap 7 7 false []) = some (.idle, 7, false, []) := by and_intros <;> decide

/-! ## V7: reset, and where an instruction is placed -/

/-- The start state of V7, with the reset line and the other inputs driven. -/
def resetRow : State :=
  { cfg := { depth := 2, unitTicks := 2, timeWidth := 32, nProd := 1, fClk := 10 }, time := 37, now := 40,
    fstate := .hold, pin := true, q := [.dot], owner := some 0, rrLast := 0, seq := [.dash, .eoc], seqLast := true,
    inputs := [{ rst := true, ports := [offers 0x45 true] }], cycle := 0 }

theorem test_v7_reset :
    stepped resetRow = some { State.resetOf resetRow.cfg with inputs := [], cycle := 1 } := by decide

theorem test_v7_outputs :
    resetRow.outputs = { gnt := [false], inReady := [false], pin := true, qLevel := 1, fState := 0b01 } := by decide

/-- A byte placed for the next step is the byte that transfers. -/
theorem test_placed_byte :
    (stepped (State.reset.withFetchWord 8 0x71)).map (fun t => (t.owner, t.seq))
      = some (some 0, [.dash, .dash, .dot, .dash, .eoc]) := by decide

/-- A symbol placed for the next step is the symbol that is popped. -/
theorem test_placed_symbol :
    (stepped (State.reset.withFetchWord 8 0b01)).map (fun t => (t.fstate, t.now, t.pin, t.q))
      = some (.hold, 3, true, []) := by decide

/-! ## Witnesses: the hypotheses of the statements can be met -/

/-- The holder's port is ready; the lock is held and the sequencer empty. -/
def readyState : State := ingestRow (some 1) 1 [] false [] (drive PortIn.quiet (offers 0x5A true))

/-- The same with an ignored byte that is not final. -/
def readyState' : State := ingestRow (some 0) 1 [] true [.dot, .dot] (drive (offers 0x7B false) PortIn.quiet)

theorem witness_DecodeOfEncodeIsTheInstruction :
    (Instr.ignore 0xFF).wf = true ∧ (Instr.ignore 0x00).wf = true ∧ (Instr.letterZ true).wf = true := by decide

theorem witness_BytesFallIntoThreeClasses :
    [0x00, 0x1F, 0x20, 0x21, 0x40, 0x41, 0x5A, 0x5B, 0x60, 0x61, 0x7A, 0x7B, 0xFF].map (fun b => (memRead b).kind)
      = [0b00, 0b00, 0b10, 0b00, 0b00, 0b01, 0b01, 0b00, 0b00, 0b01, 0b01, 0b00, 0b00] := by decide

theorem witness_CaseFoldingOfLetters :
    byteClass 0x41 = .letter ∧ byteClass 0x5A = .letter ∧ byteClass 0x61 = .letter ∧ byteClass 0x7A = .letter := by
  decide

theorem witness_ExpansionLengthsAndOneEoc :
    byteClass 0x45 = .letter ∧ byteClass 0x79 = .letter ∧ byteClass 0x20 = .space ∧ byteClass 0xFF = .ignore := by
  decide

/-- The hypotheses of the three letter statements and of the space byte. -/
theorem witness_LettersLoadTheirExpansion :
    readyState.input.rst = false ∧ readyState.owner = some 1 ∧ readyState.seq = [] := by decide

theorem witness_SpaceByteLoadsOneSpace :
    readyState'.input.rst = false ∧ readyState'.owner = some 0 ∧ readyState'.seq = [] := by decide

/-- The ends of R128's four ranges, a final byte and one that is not. -/
theorem witness_IgnoredByteLoadsNothing :
    ([0x00, 0x1F, 0x21, 0x40, 0x5B, 0x60, 0x7B, 0xFF].all fun b : Byte =>
        decide (b ≤ 0x1F ∨ (0x21 ≤ b ∧ b ≤ 0x40) ∨ (0x5B ≤ b ∧ b ≤ 0x60) ∨ 0x7B ≤ b)) = true
      ∧ readyState'.input.rst = false ∧ readyState'.owner = some 0 ∧ readyState'.seq = []
      ∧ (readyState'.port 0).last = false ∧ (readyState.port 1).last = true := by decide

theorem witness_ByteWithoutReadyPortChangesNothing :
    Instr.format (.letterE false) = .byte8 ∧ (∀ p, (flashRow .idle 0 0 false []).inReady p = false)
      ∧ (∀ p, resetRow.inReady p = false)
      ∧ (∀ p, (ingestRow (some 0) 0 [.eoc] false [] (drive asks asks)).inReady p = false) := by
  refine ⟨by decide, fun p => ?_, fun p => ?_, fun p => ?_⟩
  · simp [State.inReady, flashRow]
  · simp [State.inReady, resetRow, State.input]
  · simp [State.inReady, ingestRow]

theorem witness_ByteInstructionsLeaveTheFlasherAlone :
    ∃ t, Instr.format (.letterZ false) = .byte8 ∧ exec (.letterZ false) readyState = .next t
      ∧ t.seq = [.dash, .dash, .dot, .dot, .eoc] :=
  ⟨{ readyState with seq := [.dash, .dash, .dot, .dot, .eoc], seqLast := true }, by decide, rfl, rfl⟩

theorem witness_SymbolsPopFromIdleWithARebase :
    [Sym.dot, .dash, .eoc, .space].all fun x =>
      (flashRow .idle 15 0 false [x, .dot]).fstate == .idle && (flashRow .idle 15 0 false [x, .dot]).q == [x, .dot] := by
  decide

theorem witness_SymbolsPopAtTheGapDeadlineWithoutARebase :
    [Sym.dot, .dash, .eoc, .space].all fun x =>
      (flashRow .gap 14 14 false [x]).fstate == .gap && (flashRow .gap 14 14 false [x]).q == [x]
        && reached 4 (flashRow .gap 14 14 false [x]).time (flashRow .gap 14 14 false [x]).now := by decide

theorem witness_SymbolsWaitForTheirTurn :
    (flashRow .hold 5 5 true [.dot]).fstate = .hold
      ∧ ((flashRow .gap 6 7 false [.dot]).fstate = .gap ∧ reached 4 6 7 = false)
      ∧ (flashRow .idle 3 9 false [.dash]).q.head? ≠ some .dot ∧ (flashRow .idle 3 9 false []).q.head? ≠ some .dot := by
  decide

theorem witness_SymbolInstructionsLeaveTheIngestUnitAlone :
    ∃ t, Instr.format .dot = .sym2 ∧ exec .dot (flashRow .idle 3 9 false [.dot]) = .next t ∧ t.q = [] :=
  ⟨{ flashRow .idle 3 9 false [.dot] with q := [], now := 5, pin := true, fstate := .hold }, by decide, rfl, rfl⟩

theorem witness_StepRunsTheTransferredByte :
    readyState.cfg.legal = true ∧ readyState.input.rst = false ∧ readyState.owner = some 1 ∧ readyState.seq = []
      ∧ (readyState.port 1).valid = true := by decide

theorem witness_StepRunsThePoppedSymbol :
    let s := flashRow .idle 3 9 false [.dash]
    let t := flashRow .gap 7 7 false [.space, .dot]
    (s.cfg.legal = true ∧ s.input.rst = false ∧ s.q = .dash :: [] ∧ s.fstate = .idle)
      ∧ (t.cfg.legal = true ∧ t.input.rst = false ∧ t.q = .space :: [.dot] ∧ t.fstate = .gap
        ∧ reached t.cfg.timeWidth t.time t.now = true) := by decide

/-- The only hypothesis of the statements about every legal state. -/
theorem witness_LegalConfiguration : resetRow.cfg.legal = true ∧ State.reset.cfg.legal = true := by decide

/-- `IllegalConfigurationsAreRefused`: both directions. -/
theorem witness_IllegalConfigurationsAreRefused :
    step { State.reset with cfg := ⟨1, 3, 4, 1, 1⟩ } = .refused .illegalConfig ∧ (stepped resetRow).isSome = true :=
  ⟨rfl, by decide⟩

theorem witness_RoundRobinPicksTheFirstRequester :
    (0 < 3 ∧ rrPick 3 1 (reqs [true, false, false]) = some 0) ∧ reqs [true] 0 = true := by decide

theorem witness_FreeLockIsGrantedToTheRoundRobinsChoice :
    let s := ingestRow none 1 [] false [] (drive asks asks)
    let t := ingestRow none 1 [] false [] (drive PortIn.quiet PortIn.quiet)
    (s.cfg.legal = true ∧ s.input.rst = false ∧ s.owner = none ∧ s.grantee = some 0)
      ∧ t.input.rst = false ∧ t.owner = none ∧ t.grantee = none := by decide

/-- The three clauses: the lock stays, is granted, is released by a push and by a final ignored byte. -/
theorem witness_LockPassesOnlyThroughFree :
    (stepped readyState).map (·.owner) = some (some 1)
      ∧ (stepped (ingestRow none 1 [] false [] (drive asks asks))).map (·.owner) = some (some 0)
      ∧ (stepped (ingestRow (some 0) 0 [.eoc] true [] (drive asks asks))).map (·.owner) = some none
      ∧ (stepped (ingestRow (some 0) 0 [] false [] (drive (offers 0x31 true) asks))).map (·.owner) = some none
      ∧ readyState.input.rst = false := by decide

theorem witness_WaitingProducerMovesUpAtEveryGrant :
    (0 < 3 ∧ reqs [true, true, true] 0 = true ∧ rrPick 3 0 (reqs [true, true, true]) = some 1
        ∧ waitRank 3 0 0 = 2 ∧ waitRank 3 1 0 = 1)
      ∧ waitRank 3 2 0 = 0 ∧ rrPick 3 2 (reqs [true, true, true]) = some 0 := by decide

theorem witness_AtMostOneProducerIsGranted :
    readyState.gnt 1 = true ∧ readyState.inReady 1 = true ∧ readyState.transfers 1 = true := by decide

/-- The three clauses: a byte with symbols, a final byte without, and no byte. -/
theorem witness_TransferLoadsTheEncodedByte :
    let s := ingestRow (some 0) 0 [] true [] (drive (offers 0x31 true) PortIn.quiet)
    let t := ingestRow (some 0) 0 [] true [] (drive asks PortIn.quiet)
    (readyState.cfg.legal = true ∧ readyState.input.rst = false ∧ readyState.owner = some 1 ∧ readyState.seq = []
        ∧ (readyState.port 1).valid = true ∧ enc (readyState.port 1).byte ≠ [])
      ∧ ((readyState'.port 0).valid = true ∧ (readyState'.port 0).last = false)
      ∧ (s.input.rst = false ∧ (s.port 0).valid = true ∧ enc (s.port 0).byte = [] ∧ (s.port 0).last = true)
      ∧ (t.input.rst = false ∧ (t.port 0).valid = false) := by decide

theorem witness_SequencerPushesOneSymbolACycle :
    let s := ingestRow (some 0) 0 [.dot, .eoc] true [.dash] (drive asks asks)
    let t := ingestRow (some 0) 0 [.eoc] true [.dash] (drive asks asks)
    (s.cfg.legal = true ∧ s.input.rst = false ∧ s.owner = some 0 ∧ s.seq = .dot :: [.eoc]
      ∧ s.q.length < s.cfg.depth) ∧ (t.seq = .eoc :: [] ∧ t.q.length < t.cfg.depth) := by decide

theorem witness_FullQueueStallsTheSequencer :
    let s := ingestRow (some 1) 1 [.eoc] true [.dash, .dash] (drive asks asks)
    s.cfg.legal = true ∧ s.input.rst = false ∧ s.owner = some 1 ∧ s.seq ≠ [] ∧ s.q.length = s.cfg.depth := by decide

/-- Inputs that differ only where the state does not look: in a busy cycle, and under reset. -/
theorem witness_IgnoredInputsHaveNoEffect :
    AgreeOnReadInputs (ingestRow (some 1) 1 [.eoc] true [] (drive asks asks))
        (drive (offers 0x41 false) asks) (drive asks (offers 0x42 true))
      ∧ AgreeOnReadInputs readyState { rst := true, ports := [] } { rst := true, ports := [offers 0x41 true] } := by
  refine ⟨⟨rfl, fun _ => ⟨fun h => ?_, fun p _ h => ?_⟩⟩, rfl, fun h => ?_⟩
  · simp [ingestRow] at h
  · simp [ingestRow] at h
  · simp at h

theorem witness_QueueUpdateTakesThePopAndThePush :
    let s := { ingestRow (some 1) 1 [.eoc] true [.dash] (drive asks asks) with fstate := .gap, now := 0 }
    s.cfg.legal = true ∧ s.input.rst = false ∧ s.popNow = some .dash ∧ s.pushNow = some .eoc := by decide

/-! ### Witnesses of the Flasher's statements and of runs -/

/-- A state of the smallest unit, at the start of a run of cycles without a reset. -/
def runRow (f : FState) (time now : Nat) (q : List Sym) (cycles : Nat) : State :=
  { cfg := { depth := 4, unitTicks := 1, timeWidth := 4, nProd := 2, fClk := 5 }, time := time, now := now, fstate := f,
    pin := false, q := q, owner := none, rrLast := 1, seq := [], seqLast := false,
    inputs := List.replicate cycles Inputs.quiet, cycle := 0 }

/-- The states of `runRow` meet the invariants when their deadline does. -/
theorem runRow_inv (f : FState) (time now : Nat) (q : List Sym) (cycles : Nat) (ht : time < 16) (hn : now < 16)
    (hq : q.length ≤ 4) (hd : f ≠ .idle → subMod 4 now time ≤ 2) : (runRow f time now q cycles).Inv where
  legal := rfl
  time_lt := ht
  now_lt := hn
  owner_lt := by simp [runRow]
  rr_lt := Nat.one_lt_two
  capacity := hq
  free_seq := by simp [runRow]
  seq_suffix := by simp [runRow]
  deadline := hd
  pin_hold := by simp [runRow]

theorem witness_IdleFlasherWaitsForASymbol :
    (runRow .idle 3 9 [] 2).cfg.legal = true ∧ (runRow .idle 3 9 [] 2).fstate = .idle ∧ noReset 2 (runRow .idle 3 9 [] 2)
      ∧ ∀ k, k < 2 → (after k (runRow .idle 3 9 [] 2)).q = [] := by
  unfold noReset
  decide

theorem witness_HoldEndsAtItsDeadline :
    let s := flashRow .hold 15 15 true []
    s.cfg.legal = true ∧ s.input.rst = false ∧ s.fstate = .hold ∧ reached s.cfg.timeWidth s.time s.now = true := by
  decide

theorem witness_EmptyQueueAtTheGapDeadlineGoesIdle :
    let s := { ingestRow (some 1) 1 [.eoc] true [] (drive asks asks) with fstate := .gap, now := 0 }
    s.cfg.legal = true ∧ s.input.rst = false ∧ s.fstate = .gap ∧ s.q = []
      ∧ reached s.cfg.timeWidth s.time s.now = true := by decide

theorem witness_FlasherWaitsForItsDeadline :
    let s := flashRow .gap 15 0 false [.dot]
    let t := flashRow .hold 4 5 true []
    (s.cfg.legal = true ∧ s.input.rst = false ∧ s.fstate ≠ .idle ∧ reached s.cfg.timeWidth s.time s.now = false)
      ∧ t.fstate ≠ .idle ∧ reached t.cfg.timeWidth t.time t.now = false := by decide

/-- On time and early, across the wrap. -/
theorem witness_DeadlineIsReachedExactlyOnTime :
    ((runRow .gap 0 0 [] 0).Inv ∧ (runRow .gap 0 0 [] 0).dl = true)
      ∧ (runRow .hold 15 1 [] 0).Inv ∧ (runRow .hold 15 1 [] 0).dl = false :=
  ⟨⟨runRow_inv _ _ _ _ _ (by decide) (by decide) (by decide) (by decide), by decide⟩,
    runRow_inv _ _ _ _ _ (by decide) (by decide) (by decide) (by decide), by decide⟩

theorem witness_ResetLoadsResetStateFromAnyState : resetRow.cfg.legal = true ∧ resetRow.input.rst = true := by decide

theorem witness_EveryStepKeepsTheInvariants :
    ∃ t, (runRow .gap 15 15 [.dash, .eoc] 1).Inv ∧ step (runRow .gap 15 15 [.dash, .eoc] 1) = .next t
      ∧ t.q = [.eoc] ∧ t.now = 2 :=
  ⟨(runRow .gap 15 15 [.dash, .eoc] 1).nextState,
    runRow_inv _ _ _ _ _ (by decide) (by decide) (by decide) (by decide), rfl, by decide, by decide⟩

theorem witness_RunsNeverStop : (runRow .idle 0 0 [.dot] 3).cfg.legal = true := by decide

/-- A run with a message of the one letter E: grant before, transfer, two pushes, release. -/
def messageRow : State :=
  { runRow .idle 0 0 [] 0 with
    owner := some 0
    inputs := drive (offers 0x45 true) asks :: List.replicate 2 (drive PortIn.quiet asks) }

theorem witness_QueueDeliversExactlyOnceInOrder :
    messageRow.cfg.legal = true ∧ noReset 3 messageRow ∧ messageRow.q = [] ∧ pushed 3 messageRow = [.dot, .eoc]
      ∧ popped 3 messageRow = [.dot] := by
  unfold noReset
  decide

theorem witness_PushedSymbolsAreTheEncodedBytes :
    messageRow.cfg.legal = true ∧ noReset 3 messageRow ∧ accepted 3 messageRow = [0x45] := by
  unfold noReset
  decide

theorem witness_MessagesNeverInterleave :
    messageRow.cfg.legal = true ∧ messageRow.owner = some 0 ∧ messageRow.seq = [] ∧ noReset 3 messageRow
      ∧ (∀ k, k < 3 → (after k messageRow).owner = some 0) ∧ (after 3 messageRow).owner = none
      ∧ (runRow .idle 0 0 [] 0).owner = none := by
  unfold noReset
  decide

theorem witness_AcceptedByteIsPushedWithoutPause :
    messageRow.cfg.legal = true ∧ messageRow.owner = some 0 ∧ messageRow.transfers 0 = true
      ∧ noReset ((enc (messageRow.port 0).byte).length + 1) messageRow
      ∧ (∀ k, 1 ≤ k → k ≤ 2 → (after k messageRow).q.length < messageRow.cfg.depth)
      ∧ (enc (messageRow.port 0).byte).length = 2 := by
  unfold noReset
  decide

/-- A pulse from IDLE, and a long gap symbol at a gap's deadline across the wrap. -/
theorem witness_SymbolHasItsWaveform :
    ((runRow .idle 3 9 [.dot] 3).Inv ∧ (runRow .idle 3 9 [.dot] 3).popNow = some .dot
        ∧ noReset (d1 (runRow .idle 3 9 [.dot] 3).cfg .dot + d2 (runRow .idle 3 9 [.dot] 3).cfg + 1)
          (runRow .idle 3 9 [.dot] 3))
      ∧ (runRow .gap 14 14 [.space] 5).Inv ∧ (runRow .gap 14 14 [.space] 5).popNow = some .space
        ∧ noReset (d1 (runRow .gap 14 14 [.space] 5).cfg .space + d2 (runRow .gap 14 14 [.space] 5).cfg + 1)
          (runRow .gap 14 14 [.space] 5) := by
  refine ⟨⟨runRow_inv _ _ _ _ _ (by decide) (by decide) (by decide) (by decide), by decide, ?_⟩,
    runRow_inv _ _ _ _ _ (by decide) (by decide) (by decide) (by decide), by decide, ?_⟩
  all_goals unfold noReset; decide

theorem witness_ContinuousStreamDoesNotDrift :
    let s := runRow .idle 15 0 [.dot, .dash] 6
    s.Inv ∧ s.popNow ≠ none ∧ noReset 6 s ∧ (∀ k, 1 ≤ k → k ≤ 6 → (after k s).fstate ≠ .idle)
      ∧ (after 6 s).mayPop = true ∧ popped 6 s = [.dot, .dash] := by
  refine ⟨runRow_inv _ _ _ _ _ (by decide) (by decide) (by decide) (by decide), by decide, ?_, ?_, by decide, by decide⟩
  · unfold noReset; decide
  · decide

/-- The gap inside a letter, and the gap between two words. -/
theorem witness_GapsOnTheWire :
    let s := runRow .idle 0 0 [.dot, .dash] 3
    let t := runRow .idle 0 0 [.dash, .eoc, .space, .dot] 11
    (s.Inv ∧ s.popNow = some .dot ∧ s.q = .dot :: ([] ++ .dash :: []) ∧ noReset (d1 s.cfg .dot + 1 * s.cfg.unitTicks + 1) s)
      ∧ t.Inv ∧ t.popNow = some .dash ∧ t.q = .dash :: ((.eoc :: List.replicate 1 .space) ++ .dot :: [])
        ∧ noReset (d1 t.cfg .dash + (3 + 4 * 1) * t.cfg.unitTicks + 1) t := by
  refine ⟨⟨runRow_inv _ _ _ _ _ (by decide) (by decide) (by decide) (by decide), by decide, rfl, ?_⟩,
    runRow_inv _ _ _ _ _ (by decide) (by decide) (by decide) (by decide), by decide, rfl, ?_⟩
  all_goals unfold noReset; decide

theorem witness_NonEmptyQueueIsPoppedInTime :
    let s := runRow .hold 3 5 [.dot] 4
    s.Inv ∧ s.q ≠ [] ∧ noReset (4 * s.cfg.unitTicks) s := by
  refine ⟨runRow_inv _ _ _ _ _ (by decide) (by decide) (by decide) (by decide), by decide, ?_⟩
  unfold noReset; decide

theorem witness_CursorIsNotReadInIdle :
    (runRow .idle 3 9 [.dot] 0).cfg.legal = true ∧ (runRow .idle 3 9 [.dot] 0).fstate = .idle := by decide

theorem witness_StaleLastFlagIsNotRead :
    readyState.cfg.legal = true ∧ readyState.seq = [] := by decide

end Sys2Proof.Tests
end

section
/-! The decoding step is the next-state function of R37: each unit's action in the model, through the laws of
`Laws/Units`, against its pseudocode, then the two composed. -/

namespace Sys2Proof.Machine

/-! ## The round robin (R144) -/

/-- The model's search lists the producers from `last + start` on and takes the first that requests. -/
theorem rrSearch_eq_find? (n last : Nat) (req : Nat → Bool) (k start : Nat) :
    rrSearch n last req k start = ((List.range k).map fun j => (last + start + j) % n).find? req := by
  induction k generalizing start with
  | zero => rfl
  | succ k ih =>
    have htail : ((List.range k).map fun j => (last + start + (j + 1)) % n)
        = (List.range k).map fun j => (last + (start + 1) + j) % n :=
      List.map_congr_left fun j _ => by rw [show last + start + (j + 1) = last + (start + 1) + j by omega]
    simp only [rrSearch, ih, List.range_succ_eq_map, List.map_cons, List.map_map, Function.comp_def,
      Nat.succ_eq_add_one, htail, List.find?_cons, Nat.add_zero]
    cases req ((last + start) % n) <;> rfl

/-- The model's round robin picks what the transcription of R144 picks. -/
theorem rrPick_eq_rrFirst (n last : Nat) (req : Nat → Bool) : rrPick n last req = rrFirst n last req :=
  rrSearch_eq_find? n last req n 1

/-! ## The ingest unit (R141) -/

/-- Without a reset, `Ingest` of R141 returns the registers that the model's ingest unit writes, and the symbol that
the model pushes. -/
theorem ingestR141_eq (s : State) (hr : s.input.rst = false) :
    ingestR141 s = { owner := s.ingested.owner, rrLast := s.ingested.rrLast, seq := s.ingested.seq,
                     seqLast := s.ingested.seqLast, push := s.enqSym } := by
  unfold ingestR141 State.enqSym
  cases ho : s.owner with
  | none =>
    have hg : rrFirst s.cfg.nProd s.rrLast (fun p => (s.input.port p).req) = s.grantee :=
      (rrPick_eq_rrFirst _ _ _).symm
    rw [ingested_free s ho, hg]
    cases s.grantee <;> simp [ho]
  | some p =>
    cases hs : s.seq with
    | nil =>
      have hready : s.inReady p = true := (s.inReady_iff p).2 ⟨hr, ho, hs⟩
      rw [ingested_ready s p ho hs, State.transfers, hready, Bool.and_true, State.port]
      cases hv : (s.input.port p).valid
      · simp [hv, ho, hs]
      · by_cases hrel : enc (s.input.port p).byte = [] ∧ (s.input.port p).last = true <;>
          simp [State.accept, hv, hrel, ho, hs]
    | cons x xs =>
      rw [ingested_busy s p ho (by simp [hs])]
      by_cases hroom : s.q.length < s.cfg.depth
      · by_cases hrel : xs = [] ∧ s.seqLast = true <;> simp [State.hasRoom, hroom, ho, hs, hrel]
      · simp [State.hasRoom, hroom, ho, hs]

/-! ## The Flasher (R170) -/

/-- Without a reset, `Flasher` of R170 returns the registers that the model's Flasher writes, and `pop` in the cycles
in which the model pops a symbol. -/
theorem flasherR170_eq (s : State) (hr : s.input.rst = false) :
    flasherR170 s = { fstate := s.flashed.fstate, now := s.flashed.now, pin := s.flashed.pin,
                      pop := s.popNow.isSome } := by
  have hdl : reached s.cfg.timeWidth s.time s.now = s.dl := rfl
  unfold flasherR170 State.popNow
  cases hf : s.fstate with
  | idle =>
    obtain ⟨hm, hb⟩ := mayPop_idle s hf
    rw [flashed_idle s hf]
    cases hq : s.q <;> simp [hf, hr, hm, hb, wrap]
  | hold =>
    rw [flashed_hold s hf]
    cases hd : s.dl <;> simp [hdl, hd, hf, mayPop_hold s hf, wrap]
  | gap =>
    obtain ⟨hm, hb⟩ := mayPop_gap s hf
    rw [flashed_gap s hf]
    cases hd : s.dl
    · simp [hdl, hd, hf, hm]
    · cases hq : s.q <;> simp [hdl, hd, hr, hm, hb, wrap]

/-! ## The FIFO (R150) and the whole cycle (R37) -/

/-- `FifoUpdate` takes the head out for a pop, then appends what is pushed. -/
theorem fifoUpdate_eq (q : List Sym) (pop : Bool) (push : Option Sym) :
    fifoUpdate q pop push = (if pop then q.tail else q) ++ push.toList := by
  cases push <;> simp [fifoUpdate]

/-- In a cycle with a reset, `Step` of R37 is the model's reset (R230). -/
theorem stepR37_of_reset (s : State) (hr : s.input.rst = true) : stepR37 s = s.takeReset.nextInputs := by
  simp only [stepR37, hr, if_true]
  rfl

/-- In a cycle without a reset, `Step` of R37 composes what the model's two units, its queue and its timer do. -/
theorem stepR37_of_noReset (s : State) (hr : s.input.rst = false) : stepR37 s = s.cycled := by
  obtain ⟨howner, hrr, hseq, hlast⟩ := cycled_ingest s
  obtain ⟨hnow, hfstate, hpin, hq⟩ := cycled_flasher s
  obtain ⟨hcfg, htime, hinputs, hcycle⟩ := cycled_rest s
  rw [flashed_q s hr] at hq
  ext1 <;> simp [stepR37, ingestR141_eq, flasherR170_eq, fifoUpdate_eq, wrap, *]

/-- Settles O22: with and without a reset, the step by the law `step_eq` is the transcription of R37. -/
theorem stepIsTheSpecsNextStateFunction : Obligations.StepIsTheSpecsNextStateFunction := by
  intro s hl
  rw [step_eq s hl]
  cases hr : s.input.rst
  · simp [stepR37_of_noReset s hr]
  · simp [stepR37_of_reset s hr]

end Sys2Proof.Machine
end

section
/-! The encoding of bytes and symbols: the byte map of R81 in the ROM and in the decoder, case folding (R82), the
reserved ROM words (R84), and what the bits of a symbol's code give (R86, R92, R171, R172). -/

namespace Sys2Proof

/-! ## The classes of bytes by their ranges (R81) -/

theorem byteClass_eq_letter_iff (b : Byte) :
    byteClass b = .letter ↔ (0x41 ≤ b ∧ b ≤ 0x5A) ∨ (0x61 ≤ b ∧ b ≤ 0x7A) := by
  simp only [byteClass, BitVec.le_def, BitVec.reduceToNat]
  split
  · next hletter => simpa using hletter
  · next hother => split <;> simpa using hother

theorem byteClass_eq_space_iff (b : Byte) : byteClass b = .space ↔ b = 0x20 := by
  simp only [byteClass, BitVec.toNat_eq, BitVec.reduceToNat]
  split
  · simp only [reduceCtorEq, false_iff]; omega
  · split <;> simpa

theorem byteClass_eq_ignore_iff (b : Byte) :
    byteClass b = .ignore ↔ b ≤ 0x1F ∨ (0x21 ≤ b ∧ b ≤ 0x40) ∨ (0x5B ≤ b ∧ b ≤ 0x60) ∨ 0x7B ≤ b := by
  simp only [byteClass, BitVec.le_def, BitVec.reduceToNat]
  split
  · simp only [reduceCtorEq, false_iff]; omega
  · split
    · simp only [reduceCtorEq, false_iff]; omega
    · simp only [true_iff]; omega

/-! ## The classes in the ROM (R83, R87) -/

/-- The value of `KIND` that stands for a class (R83). -/
def ByteClass.kind : ByteClass → BitVec 2
  | .letter => 0b01
  | .space  => 0b10
  | .ignore => 0b00

theorem ByteClass.kind_injective : Function.Injective ByteClass.kind := by
  intro c d h
  cases c <;> cases d <;> simp_all [ByteClass.kind]

theorem memRead_upper {b : Byte} (h : 0x41 ≤ b ∧ b ≤ 0x5A) :
    memRead b = letterRomWords.getD (b.toNat - 0x41) 0 :=
  if_pos h

theorem memRead_lower {b : Byte} (h : 0x61 ≤ b ∧ b ≤ 0x7A) :
    memRead b = letterRomWords.getD (b.toNat - 0x61) 0 := by
  have hupper : ¬ (0x41 ≤ b ∧ b ≤ 0x5A) := by bv_omega
  rw [memRead, if_neg hupper, if_pos h]

/-- Every byte of class IGNORE holds the word 0x000 (R87). -/
theorem memRead_ignore {b : Byte} (h : byteClass b = .ignore) : memRead b = 0 := by
  rw [byteClass_eq_ignore_iff] at h
  rw [memRead, if_neg (by bv_omega), if_neg (by bv_omega), if_neg (by bv_omega)]

theorem kind_letterRomWords : ∀ n, n < 26 → (letterRomWords.getD n 0).kind = 0b01 := by decide

/-- The ROM word of a byte names the byte's class. -/
theorem memRead_kind (b : Byte) : (memRead b).kind = (byteClass b).kind := by
  cases hc : byteClass b with
  | letter =>
    obtain hupper | hlower := (byteClass_eq_letter_iff b).1 hc
    · rw [memRead_upper hupper]; exact kind_letterRomWords _ (by bv_omega)
    · rw [memRead_lower hlower]; exact kind_letterRomWords _ (by bv_omega)
  | space => rw [(byteClass_eq_space_iff b).1 hc]; rfl
  | ignore => rw [memRead_ignore hc]; rfl

theorem memRead_kind_iff (b : Byte) (c : ByteClass) : (memRead b).kind = c.kind ↔ byteClass b = c := by
  rw [memRead_kind, ByteClass.kind_injective.eq_iff]

/-! ## The classes in the decoder (R91) -/

/-- The decoder loses nothing: the byte is the code of what it decodes to. -/
theorem encode_decodeByte8 : ∀ b : Byte, encode (decodeByte8 b) = .byte8 b := by decide

/-- Only a byte that no other row matches falls through to the default row. -/
theorem decodeByte8_wf : ∀ b : Byte, (decodeByte8 b).wf = true := by decide

theorem decodeByte8_eq_spaceByte_iff (b : Byte) : decodeByte8 b = .spaceByte ↔ b = 0x20 := by
  constructor
  · intro h
    have hcode := encode_decodeByte8 b
    rw [h] at hcode
    exact (Code.byte8.inj hcode).symm
  · rintro rfl
    rfl

theorem decodeByte8_eq_ignore_iff (b : Byte) : decodeByte8 b = .ignore b ↔ byteClass b = .ignore := by
  constructor
  · intro h
    have hwf := decodeByte8_wf b
    rw [h] at hwf
    exact beq_iff_eq.1 hwf
  · exact Laws.RoundTrip.decodeByte8_of_ignore b

/-! ## How many bytes a class has (R81) -/

/-- The bytes of one kind are counted by any finite set that holds exactly the bytes of its class. -/
theorem length_filter_kind (c : ByteClass) (bytes : Finset Nat)
    (h : ∀ n, n < 256 ∧ byteClass (BitVec.ofNat 8 n) = c ↔ n ∈ bytes) :
    ((List.range 256).filter fun n => (memRead (BitVec.ofNat 8 n)).kind == c.kind).length = bytes.card := by
  rw [← List.toFinset_card_of_nodup (List.nodup_range.filter _)]
  congr 1
  ext n
  simp [memRead_kind_iff, ← h]

/-- The values of the letters, from R81's two ranges. -/
def letterValues : Finset Nat := Finset.Icc 0x41 0x5A ∪ Finset.Icc 0x61 0x7A

theorem card_letterValues : letterValues.card = 52 := rfl

theorem mem_letterValues (n : Nat) : n < 256 ∧ byteClass (BitVec.ofNat 8 n) = .letter ↔ n ∈ letterValues := by
  simp only [byteClass_eq_letter_iff, BitVec.le_def, BitVec.toNat_ofNat, BitVec.reduceToNat, letterValues,
    Finset.mem_union, Finset.mem_Icc]
  omega

theorem space_value (n : Nat) : n < 256 ∧ byteClass (BitVec.ofNat 8 n) = .space ↔ n ∈ ({0x20} : Finset Nat) := by
  simp only [byteClass_eq_space_iff, BitVec.toNat_eq, BitVec.toNat_ofNat, BitVec.reduceToNat, Finset.mem_singleton]
  omega

/-- The ignored bytes are every other value. -/
theorem mem_ignoreValues (n : Nat) :
    n < 256 ∧ byteClass (BitVec.ofNat 8 n) = .ignore ↔ n ∈ Finset.range 256 \ (insert 0x20 letterValues) := by
  simp only [byteClass_eq_ignore_iff, BitVec.le_def, BitVec.toNat_ofNat, BitVec.reduceToNat, letterValues,
    Finset.mem_sdiff, Finset.mem_range, Finset.mem_insert, Finset.mem_union, Finset.mem_Icc]
  omega

theorem card_ignoreValues : (Finset.range 256 \ (insert 0x20 letterValues)).card = 203 := by
  have hsub : insert 0x20 letterValues ⊆ Finset.range 256 := by
    intro n hn
    simp only [letterValues, Finset.mem_insert, Finset.mem_union, Finset.mem_Icc] at hn
    exact Finset.mem_range.2 (by omega)
  have hcard : (insert 0x20 letterValues).card = 53 := by
    rw [Finset.card_insert_of_notMem (by simp [letterValues]), card_letterValues]
  rw [Finset.card_sdiff_of_subset hsub, Finset.card_range, hcard]

/-- Settles O4: the ROM's `KIND` and the decoder both follow the class of the byte, which is given by its ranges. -/
theorem bytesFallIntoThreeClasses : Obligations.BytesFallIntoThreeClasses := by
  refine ⟨fun b => ⟨?letterKind, ?spaceKind, ?ignoreKind, ?spaceDecode, ?ignoreDecode⟩,
    (length_filter_kind .letter _ mem_letterValues).trans card_letterValues,
    (length_filter_kind .space _ space_value).trans (Finset.card_singleton _),
    (length_filter_kind .ignore _ mem_ignoreValues).trans card_ignoreValues⟩
  case letterKind => rw [← byteClass_eq_letter_iff]; exact (memRead_kind_iff b .letter).symm
  case spaceKind => rw [← byteClass_eq_space_iff]; exact (memRead_kind_iff b .space).symm
  case ignoreKind => rw [← byteClass_eq_ignore_iff]; exact (memRead_kind_iff b .ignore).symm
  case spaceDecode => exact (decodeByte8_eq_spaceByte_iff b).symm
  case ignoreDecode => rw [← byteClass_eq_ignore_iff]; exact (decodeByte8_eq_ignore_iff b).symm

/-! ## Case folding (R82) -/

/-- An upper-case byte has bit 5 clear, so inverting it adds 0x20. -/
theorem bit5_upper : ∀ b : Byte, 0x41 ≤ b ∧ b ≤ 0x5A → b.getLsbD 5 = false ∧ b ^^^ 0x20 = b + 0x20 := by decide

/-- A lower-case byte has bit 5 set, so inverting it subtracts 0x20. -/
theorem bit5_lower : ∀ b : Byte, 0x61 ≤ b ∧ b ≤ 0x7A → b.getLsbD 5 = true ∧ b ^^^ 0x20 = b - 0x20 := by decide

/-- The lower-case byte of a letter reads the same entry of the letters' table as its upper-case byte. -/
theorem memRead_upper_add {b : Byte} (h : 0x41 ≤ b ∧ b ≤ 0x5A) : memRead (b + 0x20) = memRead b := by
  have hlower : 0x61 ≤ b + 0x20 ∧ b + 0x20 ≤ 0x7A := by bv_omega
  have hindex : (b + 0x20).toNat - 0x61 = b.toNat - 0x41 := by bv_omega
  rw [memRead_lower hlower, memRead_upper h, hindex]

/-- Settles O5: inverting bit 5 moves a letter by 0x20 into the range of the other case. -/
theorem caseFoldingOfLetters : Obligations.CaseFoldingOfLetters := by
  refine ⟨fun b hb => ?_, rfl, rfl, rfl, rfl⟩
  rw [byteClass_eq_letter_iff] at hb ⊢
  obtain hupper | hlower := hb
  · obtain ⟨hbit, hfold⟩ := bit5_upper b hupper
    rw [hbit, hfold]
    exact ⟨.inr (by bv_omega), memRead_upper_add hupper, by simp only [Bool.false_eq_true, false_iff]; bv_omega⟩
  · obtain ⟨hbit, hfold⟩ := bit5_lower b hlower
    have hword := memRead_upper_add (b := b - 0x20) (by bv_omega)
    rw [BitVec.sub_add_cancel] at hword
    rw [hbit, hfold]
    exact ⟨.inl (by bv_omega), hword.symm, by simp only [true_iff]; bv_omega⟩

/-! ## The reserved ROM words (R84) -/

/-- `expand` refuses a word for no other reason than that it is reserved (R85). -/
theorem expand_refused_iff (w : RomWord) : expand w = .error .reservedRomWord ↔ w.reserved = true := by
  unfold expand
  split
  · next hres => simp [hres]
  · next hres => split_ifs <;> simp [hres]

/-- The four lines of R84. -/
theorem reserved_iff (w : RomWord) :
    w.reserved = true ↔
      w.kind = 0b11
        ∨ (w.kind = 0b01 ∧ (w.nel = 0 ∨ 4 < w.nel))
        ∨ ((w.kind = 0b00 ∨ w.kind = 0b10) ∧ (w.nel ≠ 0 ∨ w.pat ≠ 0))
        ∨ ∃ i, i < 4 ∧ w.pat.getLsbD i = true ∧ w.nel ≤ i := by
  simp [RomWord.reserved, or_assoc]

/-- Settles O6: `expand` refuses exactly the reserved words, and it answers on every word of the ROM. -/
theorem reservedRomWordsAreRefusedAndNeverHeld : Obligations.ReservedRomWordsAreRefusedAndNeverHeld := by
  refine ⟨fun w => (expand_refused_iff w).trans (reserved_iff w), fun b => ?_⟩
  rw [Laws.expand_memRead]
  exact fun h => nomatch h

/-! ## The symbols' codes and durations (R86, R92, R171, R172) -/

/-- The units of the first phase are 3 where bit 0 of the code is set, else 1 (R92). -/
theorem Sym.units_eq (x : Sym) : x.units = 1 + 2 * (x.code.getLsbD 0).toNat := by
  unfold Sym.units
  cases x.code.getLsbD 0 <;> rfl

/-- The first phase from bit 0 of the code, as R171 writes it. -/
theorem d1_eq (c : Config) (x : Sym) : d1 c x = c.unitTicks * (1 + 2 * (x.code.getLsbD 0).toNat) := by
  rw [d1, Sym.units_eq]

/-- Settles O7: the codes and levels are the model's tables, and the durations follow from bit 0 of each code. -/
theorem symbolCodesAndDurations : Obligations.SymbolCodesAndDurations := by
  refine ⟨rfl, rfl, rfl, rfl, rfl, rfl, rfl, rfl, fun _ => rfl, fun c => ?_⟩
  refine ⟨?dot, ?dash, ?eoc, ?space, (Nat.one_mul _).symm, d1_eq c⟩
  all_goals rw [d1_eq, Nat.mul_comm]; rfl

end Sys2Proof
end

section
/-! What the byte instructions load into the sequencer: the expansions of the letters (R101 to R126), of the space byte
(R127) and of the ignored bytes (R128), and the effect of executing each where the port is ready (R145, R146). -/

namespace Sys2Proof

open Machine Laws

/-! ## The expansion `ENC` by the byte's class (R85, R100) -/

/-- `ENC` reads of a byte only its ROM word (R100). -/
theorem enc_congr {b c : Byte} (h : memRead b = memRead c) : enc b = enc c := by
  rw [enc, h, ← enc]

/-- What `expand` answers on a byte's ROM word is the byte's `ENC`. -/
theorem enc_eq_of_expand {b : Byte} {syms : List Sym} (h : expand (memRead b) = .ok syms) : enc b = syms :=
  Except.ok.inj ((expand_memRead b).symm.trans h)

/-- A letter expands to its elements, then one EOC (R85). -/
theorem enc_letter {b : Byte} (h : byteClass b = .letter) :
    enc b = (List.range (memRead b).nel).map (memRead b).elem ++ [.eoc] := by
  have hkind : (memRead b).kind = 0b01 := (memRead_kind_iff b .letter).2 h
  have hexpand := expand_memRead b
  rw [expand, if_pos hkind] at hexpand
  split at hexpand
  · cases hexpand
  · exact (Except.ok.inj hexpand).symm

theorem enc_ignore {b : Byte} (h : byteClass b = .ignore) : enc b = [] :=
  enc_eq_of_expand (by rw [memRead_ignore h]; rfl)

theorem enc_space : enc 0x20 = [.space] := rfl

/-- An element is a Dot or a Dash, never an EOC (R83). -/
theorem elem_ne_eoc (w : RomWord) (i : Nat) : w.elem i ≠ .eoc := by
  unfold RomWord.elem
  split <;> decide

theorem length_enc_letter {b : Byte} (h : byteClass b = .letter) : (enc b).length = (memRead b).nel + 1 := by
  simp [enc_letter h]

theorem count_eoc_enc_letter {b : Byte} (h : byteClass b = .letter) : (enc b).count .eoc = 1 := by
  have helems : ((List.range (memRead b).nel).map (memRead b).elem).count .eoc = 0 := by
    simp [List.count_eq_zero, elem_ne_eoc]
  rw [enc_letter h, List.count_append, helems]
  rfl

theorem getLast?_enc_letter {b : Byte} (h : byteClass b = .letter) : (enc b).getLast? = some .eoc := by
  simp [enc_letter h]

theorem enc_letter_ne_nil {b : Byte} (h : byteClass b = .letter) : enc b ≠ [] := by
  simp [enc_letter h]

/-! ## The two cases of a letter, and its bytes with bit 7 set (R82, R88) -/

/-- Setting bit 5 of an upper-case byte adds 0x20. -/
theorem upper_or : ∀ b : Byte, 0x41 ≤ b ∧ b ≤ 0x5A → b ||| 0x20 = b + 0x20 := by decide

theorem byteClass_letterByte {upper : Byte} (h : 0x41 ≤ upper ∧ upper ≤ 0x5A) (low : Bool) :
    byteClass (letterByte upper low) = .letter := by
  rw [byteClass_eq_letter_iff]
  cases low with
  | false => exact .inl h
  | true =>
    rw [letterByte, if_pos rfl, upper_or upper h]
    exact .inr (by bv_omega)

theorem memRead_letterByte {upper : Byte} (h : 0x41 ≤ upper ∧ upper ≤ 0x5A) (low : Bool) :
    memRead (letterByte upper low) = memRead upper := by
  cases low with
  | false => rfl
  | true => rw [letterByte, if_pos rfl, upper_or upper h, memRead_upper_add h]

/-- A byte with bit 7 set lies above every letter. -/
theorem decodeByte8_or_bit7 (b : Byte) : decodeByte8 (b ||| 0x80) = .ignore (b ||| 0x80) := by
  have hge : 0x80 ≤ (b ||| 0x80).toNat := by rw [BitVec.toNat_or]; exact Nat.right_le_or
  rw [decodeByte8_eq_ignore_iff, byteClass_eq_ignore_iff]
  exact .inr (.inr (.inr (by bv_omega)))

/-! ## Executing a byte instruction where the port is ready (R145, R146) -/

/-- With no reset, the lock held and the sequencer empty, the instruction of a byte accepts that byte. -/
theorem exec_ready {i : Instr} {b : Byte} (hi : decodeByte8 b = i) {s : State} {p : Nat} (hr : s.input.rst = false)
    (ho : s.owner = some p) (hs : s.seq = []) : exec i s = .next (s.accept b (s.port p).last) := by
  rw [← hi, exec_decodeByte8]
  exact acceptByte_ready b s p ((s.inReady_iff p).2 ⟨hr, ho, hs⟩)

/-- A byte with symbols loads them, and its `in_last` (R145). -/
theorem accept_of_enc_ne_nil (s : State) {b : Byte} (h : enc b ≠ []) (last : Bool) :
    s.accept b last = s.loadSeq (enc b) last :=
  if_neg fun hrel => h hrel.1

/-- A byte without symbols releases the lock if it is final, else it loads nothing and `in_last = 0` (R146). -/
theorem accept_of_enc_eq_nil (s : State) {b : Byte} (h : enc b = []) (last : Bool) :
    s.accept b last = if last = true then s.release else s.loadSeq [] false := by
  cases last <;> simp [State.accept, h]

/-! ## The letters (R101 to R126) -/

/-- The rule of a letter, with the numbers that the ROM gives: it holds for every upper-case byte whose two cases decode
to the letter. At one letter these numbers evaluate to the ones that its rule writes out. -/
theorem letterMeans {make : Bool → Instr} {upper : Byte} (hupper : 0x41 ≤ upper ∧ upper ≤ 0x5A)
    (hdecode : ∀ low, decodeByte8 (letterByte upper low) = make low) :
    LetterMeans make upper (letterByte upper true) (memRead upper) (memRead upper).nel (memRead upper).pat
      (enc upper) (totalUnits (enc upper)) (highUnits (enc upper)) := by
  have hclass := byteClass_letterByte hupper
  have hword := memRead_letterByte hupper
  have henc (low : Bool) : enc (letterByte upper low) = enc upper := enc_congr (hword low)
  refine ⟨hdecode false, hdecode true, decodeByte8_or_bit7 _, decodeByte8_or_bit7 _, rfl, hword true,
    (memRead_kind_iff upper .letter).2 (hclass false), rfl, rfl, rfl, henc true, length_enc_letter (hclass false),
    count_eoc_enc_letter (hclass false), getLast?_enc_letter (hclass false), rfl, rfl, ?_⟩
  intro low s p hr ho hs
  rw [exec_ready (hdecode low) hr ho hs, accept_of_enc_ne_nil s (enc_letter_ne_nil (hclass low)), henc low]
  rfl

/-- Settles O9: the rule of a letter at each of A to I, where the ROM's numbers evaluate to those written out. -/
theorem lettersAToILoadTheirExpansion : Obligations.LettersAToILoadTheirExpansion :=
  ⟨letterMeans (by decide) fun low => RoundTrip.letterA low rfl,
   letterMeans (by decide) fun low => RoundTrip.letterB low rfl,
   letterMeans (by decide) fun low => RoundTrip.letterC low rfl,
   letterMeans (by decide) fun low => RoundTrip.letterD low rfl,
   letterMeans (by decide) fun low => RoundTrip.letterE low rfl,
   letterMeans (by decide) fun low => RoundTrip.letterF low rfl,
   letterMeans (by decide) fun low => RoundTrip.letterG low rfl,
   letterMeans (by decide) fun low => RoundTrip.letterH low rfl,
   letterMeans (by decide) fun low => RoundTrip.letterI low rfl⟩

/-- Settles O10: the rule of a letter at each of J to R, where the ROM's numbers evaluate to those written out. -/
theorem lettersJToRLoadTheirExpansion : Obligations.LettersJToRLoadTheirExpansion :=
  ⟨letterMeans (by decide) fun low => RoundTrip.letterJ low rfl,
   letterMeans (by decide) fun low => RoundTrip.letterK low rfl,
   letterMeans (by decide) fun low => RoundTrip.letterL low rfl,
   letterMeans (by decide) fun low => RoundTrip.letterM low rfl,
   letterMeans (by decide) fun low => RoundTrip.letterN low rfl,
   letterMeans (by decide) fun low => RoundTrip.letterO low rfl,
   letterMeans (by decide) fun low => RoundTrip.letterP low rfl,
   letterMeans (by decide) fun low => RoundTrip.letterQ low rfl,
   letterMeans (by decide) fun low => RoundTrip.letterR low rfl⟩

/-- Settles O11: the rule of a letter at each of S to Z, where the ROM's numbers evaluate to those written out. -/
theorem lettersSToZLoadTheirExpansion : Obligations.LettersSToZLoadTheirExpansion :=
  ⟨letterMeans (by decide) fun low => RoundTrip.letterS low rfl,
   letterMeans (by decide) fun low => RoundTrip.letterT low rfl,
   letterMeans (by decide) fun low => RoundTrip.letterU low rfl,
   letterMeans (by decide) fun low => RoundTrip.letterV low rfl,
   letterMeans (by decide) fun low => RoundTrip.letterW low rfl,
   letterMeans (by decide) fun low => RoundTrip.letterX low rfl,
   letterMeans (by decide) fun low => RoundTrip.letterY low rfl,
   letterMeans (by decide) fun low => RoundTrip.letterZ low rfl⟩

/-! ## The space byte (R127) -/

/-- Each of `n` spaces gives its own SPACE. -/
theorem flatMap_enc_replicate_space (n : Nat) :
    (List.replicate n (0x20 : Byte)).flatMap enc = List.replicate n .space := by
  rw [List.flatMap_replicate, enc_space, List.flatten_replicate_singleton]

theorem totalUnits_replicate (n : Nat) (x : Sym) : totalUnits (List.replicate n x) = (x.units + 1) * n := by
  simp [totalUnits, Nat.mul_comm]

/-- Settles O12: the space byte expands to one SPACE, and its acceptance loads it. -/
theorem spaceByteLoadsOneSpace : Obligations.SpaceByteLoadsOneSpace := by
  have hspace : decodeByte8 0x20 = .spaceByte := (decodeByte8_eq_spaceByte_iff 0x20).2 rfl
  refine ⟨hspace, rfl, enc_space, (decodeByte8_eq_ignore_iff 0x00).2 rfl, (decodeByte8_eq_ignore_iff 0xA0).2 rfl,
    rfl, rfl, fun n => ⟨flatMap_enc_replicate_space n, totalUnits_replicate n .space⟩, ?_⟩
  intro s p hr ho hs
  rw [exec_ready hspace hr ho hs, accept_of_enc_ne_nil s (by rw [enc_space]; simp), enc_space]
  rfl

/-! ## The ignored bytes (R128) -/

/-- Settles O13: a byte of class IGNORE expands to nothing, so its acceptance loads nothing or releases the lock. -/
theorem ignoredByteLoadsNothing : Obligations.IgnoredByteLoadsNothing := by
  intro b hb
  have hclass : byteClass b = .ignore := (byteClass_eq_ignore_iff b).2 hb
  have henc : enc b = [] := enc_ignore hclass
  have hdecode : decodeByte8 b = .ignore b := (decodeByte8_eq_ignore_iff b).2 hclass
  refine ⟨beq_iff_eq.2 hclass, henc, memRead_ignore hclass, hdecode, fun before later => ?stream, ?effect⟩
  case stream => simp [henc]
  case effect =>
    intro s p hr ho hs
    rw [exec_ready hdecode hr ho hs, accept_of_enc_eq_nil s henc]
    rfl

end Sys2Proof
end

section
/-! The ingest unit and the queue, one cycle at a time: the round robin (R144), the grant of the free lock (R143), the
transfer of a byte (R145, R146), the push and its stall (R147, R148), the queue's update (R150), and the inputs that no
unit reads (R149). -/

namespace Sys2Proof.Machine

/-! ## The round robin (R144) -/

/-- Counted from `last + 1`, producer `p` stands at place `waitRank n last p` of the search order. -/
theorem rrOrder_waitRank {n p : Nat} (last : Nat) (hp : p < n) : (last + 1 + waitRank n last p) % n = p := by
  have hr : (last + 1) % n < n := Nat.mod_lt _ (by omega)
  have hrank : waitRank n last p = if (last + 1) % n ≤ p then p - (last + 1) % n else p + n - (last + 1) % n := by
    rw [waitRank, mod_of_lt_two_mul (by omega)]
    split <;> split <;> omega
  have hmod : waitRank n last p % n = waitRank n last p := Nat.mod_mod _ _
  rw [Nat.add_mod_eq_ite, hmod, hrank]
  split <;> split <;> omega

/-- The search order lists the producers `0` to `n - 1`, all of them and nothing else. -/
theorem mem_rrOrder (n last p : Nat) : p ∈ (List.range n).map (fun j => (last + 1 + j) % n) ↔ p < n := by
  simp only [List.mem_map, List.mem_range]
  constructor
  · rintro ⟨j, hj, rfl⟩
    exact Nat.mod_lt _ (by omega)
  · intro hp
    exact ⟨waitRank n last p, Nat.mod_lt _ (by omega), rrOrder_waitRank last hp⟩

/-- The producer picked requests, and none at an earlier place of the search order does. -/
theorem rrPick_some {n last g : Nat} {req : Nat → Bool} (h : rrPick n last req = some g) :
    ∃ k, 1 ≤ k ∧ k ≤ n ∧ g = (last + k) % n ∧ req g = true ∧ ∀ j, 1 ≤ j → j < k → req ((last + j) % n) = false := by
  rw [rrPick_eq_rrFirst, rrFirst, List.find?_eq_some_iff_getElem] at h
  obtain ⟨hreq, i, hi, hg, hearlier⟩ := h
  simp only [List.length_map, List.length_range] at hi
  simp only [List.getElem_map, List.getElem_range, Nat.add_assoc] at hg hearlier
  refine ⟨1 + i, by omega, by omega, hg.symm, hreq, fun j h1 hj => ?_⟩
  have hj := hearlier (j - 1) (by omega)
  rw [Nat.add_sub_cancel' h1] at hj
  simpa using hj

/-- A producer is picked exactly when one requests. -/
theorem rrPick_isSome_iff (n last : Nat) (req : Nat → Bool) :
    (rrPick n last req).isSome = true ↔ ∃ p, p < n ∧ req p = true := by
  rw [rrPick_eq_rrFirst, rrFirst, List.find?_isSome]
  simp only [mem_rrOrder]

/-- The pick reads the requests of the producers `0` to `n - 1` only. -/
theorem rrFirst_congr {n : Nat} (last : Nat) {req req' : Nat → Bool} (h : ∀ p, p < n → req p = req' p) :
    rrFirst n last req = rrFirst n last req' :=
  List.find?_congr fun p hp => h p ((mem_rrOrder n last p).1 hp)

/-- Settles O25: the search takes the first requester in an order that lists every producer. -/
theorem roundRobinPicksTheFirstRequester : Obligations.RoundRobinPicksTheFirstRequester := by
  intro n last req _
  refine ⟨fun g => rrPick_some, ?choice, ?single⟩
  case choice => rw [← rrPick_isSome_iff n last, Option.isSome_iff_ne_none]
  case single =>
    rintro rfl hreq
    simp [rrPick, rrSearch, Nat.mod_one, hreq]

/-! ## What one cycle pushes, and the queue after it (R147, R150) -/

/-- With legal parameters and no reset, the next state is the one that both units make. -/
theorem step_noReset {s : State} (hl : s.cfg.legal = true) (hr : s.input.rst = false) : step s = .next s.cycled := by
  simp [step_eq s hl, hr]

/-- An empty sequencer pushes nothing. -/
theorem pushNow_of_seq_empty {s : State} (hs : s.seq = []) : s.pushNow = none := by
  unfold State.pushNow State.enqSym
  cases s.owner <;> simp [hs]

/-- With the lock held, the head of the sequencer is pushed exactly when the queue has room (R147, R148). -/
theorem pushNow_of_busy {s : State} {p : Nat} {x : Sym} {rest : List Sym} (hr : s.input.rst = false)
    (ho : s.owner = some p) (hs : s.seq = x :: rest) : s.pushNow = if s.hasRoom then some x else none := by
  simp [pushNow_noReset s hr, State.enqSym, ho, hs]

/-- What is pushed is the head of the sequencer, and the queue has room for it (R147). -/
theorem pushNow_some {s : State} {x : Sym} (h : s.pushNow = some x) :
    s.q.length < s.cfg.depth ∧ s.seq.head? = some x := by
  unfold State.pushNow State.enqSym at h
  split at h
  · cases h
  · split at h
    · next hs =>
      split at h
      · next hroom =>
        cases h
        exact ⟨of_decide_eq_true hroom, by rw [hs, List.head?_cons]⟩
      · cases h
    · cases h

/-- What is popped is the head of the queue. -/
theorem popNow_some {s : State} {x : Sym} (h : s.popNow = some x) : s.q.head? = some x := by
  unfold State.popNow at h
  split at h
  · exact h
  · cases h

/-- The queue after a cycle without a reset, by what the cycle pops and pushes. -/
theorem cycled_q {s : State} (hr : s.input.rst = false) :
    s.cycled.q = (if s.popNow.isSome then s.q.tail else s.q) ++ s.pushNow.toList := by
  obtain ⟨-, -, -, hq⟩ := cycled_flasher s
  rw [hq, flashed_q s hr, pushNow_noReset s hr]

/-- Settles O34: the queue's law is `FifoUpdate`, applied to what the laws of the pop and the push describe. -/
theorem queueUpdateTakesThePopAndThePush : Obligations.QueueUpdateTakesThePopAndThePush := by
  intro s hl hr
  refine ⟨fun x => popNow_some, fun x => pushNow_some, s.cycled, step_noReset hl hr, ?_⟩
  rw [cycled_q hr, fifoUpdate_eq]

/-! ## The cycle of the ingest unit, by what it finds (R143, R145 to R148) -/

/-- Settles O26: with the lock free, the ingest unit writes the pick of the round robin, or nothing. -/
theorem freeLockIsGrantedToTheRoundRobinsChoice : Obligations.FreeLockIsGrantedToTheRoundRobinsChoice := by
  intro s hl hr ho
  obtain ⟨howner, hrr, hseq, hlast⟩ := cycled_ingest s
  have hpick : rrPick s.cfg.nProd s.rrLast (fun p => (s.port p).req) = s.grantee := rfl
  rw [ingested_free s ho] at howner hrr hseq hlast
  refine ⟨fun p => by simp [State.inReady, State.gnt, ho], s.cycled, step_noReset hl hr, ?_⟩
  rw [hpick]
  cases hg : s.grantee with
  | none => simp [hg, ho, howner, hrr, hseq, hlast]
  | some g =>
    simp only [hg, State.grantTo_owner, State.grantTo_rrLast, State.grantTo_seq, State.grantTo_seqLast]
      at howner hrr hseq hlast
    refine ⟨hseq, hlast, ?_, nofun⟩
    rintro _ ⟨⟩
    exact ⟨howner, hrr, fun hr' => by simp [State.gnt, hr', howner]⟩

/-- With the lock held and the sequencer empty, the port transfers exactly when it offers a byte. -/
theorem transfers_eq_valid {s : State} {p : Nat} (hr : s.input.rst = false) (ho : s.owner = some p)
    (hs : s.seq = []) : s.transfers p = (s.port p).valid := by
  rw [State.transfers, (s.inReady_iff p).2 ⟨hr, ho, hs⟩, Bool.and_true]

/-- Settles O30: an offered byte is accepted, which loads the sequencer or releases the lock, by its class and its
`in_last`. -/
theorem transferLoadsTheEncodedByte : Obligations.TransferLoadsTheEncodedByte := by
  intro s p hl hr ho hs
  obtain ⟨howner, hrr, hseq, hlast⟩ := cycled_ingest s
  rw [ingested_ready s p ho hs, transfers_eq_valid hr ho hs] at howner hrr hseq hlast
  refine ⟨pushNow_of_seq_empty hs, s.cycled, step_noReset hl hr, ?rrLast, ?loads, ?releases, ?nothing⟩
  case rrLast =>
    obtain ⟨-, -, -, -, -, -, hframe, -⟩ := accept_frame s (s.port p).byte (s.port p).last
    rw [hrr]
    split
    · exact hframe
    · rfl
  case loads =>
    intro hv hload
    have hacc : s.accept (s.port p).byte (s.port p).last = s.loadSeq (enc (s.port p).byte) (s.port p).last :=
      if_neg fun ⟨henc, hfinal⟩ => hload.elim (· henc) (by simp [hfinal])
    simp [howner, hseq, hlast, hv, hacc, ho]
  case releases =>
    intro hv henc hfinal
    have hacc : s.accept (s.port p).byte (s.port p).last = s.release := if_pos ⟨henc, hfinal⟩
    simp [howner, hseq, hlast, hv, hacc, hs]
  case nothing =>
    intro hv
    simp [howner, hseq, hlast, hv, ho, hs]

/-- Settles O31: with room in the queue, the sequencer drops the head that the queue receives. -/
theorem sequencerPushesOneSymbolACycle : Obligations.SequencerPushesOneSymbolACycle := by
  intro s p x rest hl hr ho hs hlt
  have hroom : s.hasRoom = true := decide_eq_true hlt
  have hpush : s.pushNow = some x := by rw [pushNow_of_busy hr ho hs, if_pos hroom]
  obtain ⟨howner, hrr, hseq, hlast⟩ := cycled_ingest s
  rw [ingested_busy s p ho (by simp [hs]), if_pos hroom] at howner hrr hseq hlast
  refine ⟨hpush, s.cycled, step_noReset hl hr, ?_, hlast, hrr, ?_, ?_⟩
  · simp [hseq, hs]
  · simp [howner, hs, ho]
  · simp [cycled_q hr, hpush]

/-- Settles O32: without room at the start of the cycle, the ingest unit leaves its registers and pushes nothing. -/
theorem fullQueueStallsTheSequencer : Obligations.FullQueueStallsTheSequencer := by
  intro s p hl hr ho hs hfull
  have hroom : s.hasRoom = false := by simp [State.hasRoom, hfull]
  obtain ⟨x, rest, hx⟩ := List.exists_cons_of_ne_nil hs
  have hpush : s.pushNow = none := by simp [pushNow_of_busy hr ho hx, hroom]
  obtain ⟨howner, hrr, hseq, hlast⟩ := cycled_ingest s
  rw [ingested_busy s p ho hs, hroom, if_neg Bool.false_ne_true] at howner hrr hseq hlast
  refine ⟨hpush, by simp [State.inReady, hs], s.cycled, step_noReset hl hr, howner.trans ho, hseq, hlast, hrr, ?_, ?_⟩
  · simp [State.inReady, hseq, hs]
  · simp [cycled_q hr, hpush]

/-! ## Inputs that are ignored (R149, R230) -/

/-- `Ingest` of R141 returns the same for two draws of the inputs that agree on what the state reads. -/
theorem ingestR141_congr {s : State} {i j : Inputs} (later : List Inputs) (h : AgreeOnReadInputs s i j)
    (hr : i.rst = false) :
    ingestR141 { s with inputs := i :: later } = ingestR141 { s with inputs := j :: later } := by
  obtain ⟨hreq, hport⟩ := h.2 hr
  cases ho : s.owner with
  | none =>
    have hpick := rrFirst_congr s.rrLast (hreq ho)
    simp [ingestR141, State.input, hpick]
  | some p =>
    by_cases hs : s.seq = []
    · obtain ⟨hvalid, hbyte⟩ := hport p ho hs
      cases hv : (i.port p).valid with
      | false => simp [ingestR141, State.input, hs, hv, ← hvalid]
      | true =>
        obtain ⟨hb, hlast⟩ := hbyte hv
        simp [ingestR141, State.input, hs, hv, ← hvalid, hb, hlast]
    · simp [ingestR141, hs]

/-- `Step` of R37 gives the same for two draws of the inputs that agree on what the state reads: beside the reset line,
only `Ingest` reads them. -/
theorem stepR37_congr {s : State} {i j : Inputs} (later : List Inputs) (h : AgreeOnReadInputs s i j) :
    stepR37 { s with inputs := i :: later } = stepR37 { s with inputs := j :: later } := by
  have hrst : i.rst = j.rst := h.1
  cases hr : i.rst with
  | true => simp [stepR37, State.input, hr, ← hrst]
  | false =>
    have hflash : flasherR170 { s with inputs := i :: later } = flasherR170 { s with inputs := j :: later } := rfl
    simp [stepR37, State.input, hr, ← hrst, ingestR141_congr later h hr, hflash]

/-- Settles O33: a legal step is `Step` of R37, which reads only what the two draws agree on; an illegal one is refused
whatever the inputs. -/
theorem ignoredInputsHaveNoEffect : Obligations.IgnoredInputsHaveNoEffect := by
  intro s i j later h
  by_cases hl : s.cfg.legal = true
  · rw [stepIsTheSpecsNextStateFunction { s with inputs := i :: later } hl,
      stepIsTheSpecsNextStateFunction { s with inputs := j :: later } hl, stepR37_congr later h]
  · rw [step_illegal { s with inputs := i :: later } hl, step_illegal { s with inputs := j :: later } hl]

end Sys2Proof.Machine
end

section
/-! The Flasher: the symbol it pops (R175, R178), its transitions without a pop (R176, R177, R179, R180), the deadline
test (R174), and the waveform of one symbol (R181 to R184), which is two phases of waiting for a deadline. -/

namespace Sys2Proof.Machine

/-! ## Executing the symbol that is popped (R175, R178) -/

/-- The symbol at the head of the queue, executed where the Flasher takes one, counts its deadline from `base`. -/
theorem exec_popped {s : State} {base : Nat} {rest : List Sym} (hm : s.mayPop = true) (hb : s.base = base) (x : Sym)
    (hq : s.q = x :: rest) :
    exec (decodeSym2 x.code) s = .next { s with
      q := rest, now := (base + x.units * s.cfg.unitTicks) % 2 ^ s.cfg.timeWidth, pin := x.isPulse
      fstate := .hold } := by
  rw [Laws.exec_decodeSym2, popSym_start x rest s hm hq, State.startSym, hq, hb, d1, Nat.mul_comm x.units]
  rfl

/-- Settles O16: in IDLE the Flasher takes the head, and `base` is `time`. -/
theorem symbolsPopFromIdleWithARebase : Obligations.SymbolsPopFromIdleWithARebase := by
  intro s rest hf
  obtain ⟨hm, hb⟩ := mayPop_idle s hf
  exact ⟨exec_popped hm hb .dot, exec_popped hm hb .dash, exec_popped hm hb .eoc, exec_popped hm hb .space⟩

/-- Settles O17: at the deadline of GAP the Flasher takes the head, and `base` is the old deadline. -/
theorem symbolsPopAtTheGapDeadlineWithoutARebase : Obligations.SymbolsPopAtTheGapDeadlineWithoutARebase := by
  intro s rest hf (hd : s.dl = true)
  obtain ⟨hm, hb⟩ := mayPop_gap s hf
  rw [hd] at hm
  exact ⟨exec_popped hm hb .dot, exec_popped hm hb .dash, exec_popped hm hb .eoc, exec_popped hm hb .space⟩

/-! ## When a symbol is popped -/

/-- A symbol is popped only without a reset, and only where the Flasher takes one. -/
theorem noReset_and_mayPop_of_popNow {s : State} {x : Sym} (h : s.popNow = some x) :
    s.input.rst = false ∧ s.mayPop = true := by
  unfold State.popNow at h
  split at h
  · next hpop => simpa using hpop
  · cases h

/-- Where the Flasher takes no symbol, none is popped. -/
theorem popNow_of_not_mayPop {s : State} (hm : s.mayPop = false) : s.popNow = none := by
  simp [State.popNow, hm]

/-- Where the Flasher takes a symbol, the head of the queue is popped. -/
theorem popNow_of_mayPop {s : State} (hr : s.input.rst = false) (hm : s.mayPop = true) : s.popNow = s.q.head? := by
  simp [State.popNow, hr, hm]

/-- Before its deadline the Flasher takes no symbol. -/
theorem mayPop_early {s : State} (hf : s.fstate ≠ .idle) (hd : s.dl = false) : s.mayPop = false := by
  cases h : s.fstate with
  | idle => exact absurd h hf
  | hold => exact mayPop_hold s h
  | gap => exact (mayPop_gap s h).1.trans hd

/-! ## The transitions without a pop, one cycle at a time (R176, R177, R179, R180) -/

/-- Before its deadline the Flasher does nothing (R180). -/
theorem flashed_early {s : State} (hf : s.fstate ≠ .idle) (hd : s.dl = false) : s.flashed = s := by
  cases h : s.fstate with
  | idle => exact absurd h hf
  | hold => simp [flashed_hold s h, hd]
  | gap => simp [flashed_gap s h, hd]

/-- In a cycle without a reset, the next state has the registers that the Flasher writes. -/
theorem nextState_flasher {s : State} (hl : s.cfg.legal = true) (hr : s.input.rst = false) :
    s.nextState.now = s.flashed.now ∧ s.nextState.fstate = s.flashed.fstate ∧ s.nextState.pin = s.flashed.pin := by
  obtain ⟨hnow, hfstate, hpin, -⟩ := cycled_flasher s
  rw [nextState_cycled s hl hr]
  exact ⟨hnow, hfstate, hpin⟩

/-- In a cycle without a reset, the timer counts (R208). -/
theorem nextState_time {s : State} (hl : s.cfg.legal = true) (hr : s.input.rst = false) :
    s.nextState.time = wrap s.cfg.timeWidth (s.time + 1) := by
  obtain ⟨-, htime, -⟩ := cycled_rest s
  rw [nextState_cycled s hl hr, htime]

/-- Settles O36: at the deadline of HOLD the Flasher's action is `endHold`. -/
theorem holdEndsAtItsDeadline : Obligations.HoldEndsAtItsDeadline := by
  intro s hl hr hf (hd : s.dl = true)
  obtain ⟨hnow, hfstate, hpin, -⟩ := cycled_flasher s
  rw [flashed_hold s hf, if_pos hd] at hnow hfstate hpin
  exact ⟨popNow_of_not_mayPop (mayPop_hold s hf), s.cycled, step_noReset hl hr, hpin, hnow, hfstate⟩

/-- Settles O37: at the deadline of GAP with an empty queue the Flasher's action is `goIdle`. -/
theorem emptyQueueAtTheGapDeadlineGoesIdle : Obligations.EmptyQueueAtTheGapDeadlineGoesIdle := by
  intro s hl hr hf hq (hd : s.dl = true)
  have hpop : s.popNow = none := by rw [popNow_of_mayPop hr ((mayPop_gap s hf).1.trans hd), hq, List.head?_nil]
  have hidle : s.flashed = s.goIdle := by rw [flashed_gap s hf, if_pos hd, hq]
  obtain ⟨hnow, hfstate, hpin, -⟩ := cycled_flasher s
  rw [hidle] at hnow hfstate hpin
  refine ⟨hpop, s.cycled, step_noReset hl hr, hfstate, hnow, hpin, ?_⟩
  simp [cycled_q hr, hpop, hq]

/-- Settles O38: before its deadline the Flasher takes no symbol and does nothing. -/
theorem flasherWaitsForItsDeadline : Obligations.FlasherWaitsForItsDeadline := by
  intro s hl hr hf hd
  obtain ⟨hnow, hfstate, hpin, -⟩ := cycled_flasher s
  rw [flashed_early hf hd] at hnow hfstate hpin
  exact ⟨popNow_of_not_mayPop (mayPop_early hf hd), s.cycled, step_noReset hl hr, hfstate, hnow, hpin⟩

/-- Settles O35: in IDLE with an empty queue the Flasher does nothing, so by induction it does nothing in any number of
cycles. -/
theorem idleFlasherWaitsForASymbol : Obligations.IdleFlasherWaitsForASymbol := by
  intro s n hl hf hr hq
  induction n with
  | zero => exact ⟨hf, rfl, rfl⟩
  | succ n ih =>
    obtain ⟨hidle, hcursor, hlevel⟩ := ih (noReset_mono hr n.le_succ) fun k hk => hq k (by omega)
    have hwait : (after n s).flashed = after n s := by rw [flashed_idle _ hidle, hq n n.lt_succ_self]
    have hlegal : (after n s).cfg.legal = true := by rw [after_cfg, hl]
    obtain ⟨hnow, hfstate, hpin⟩ := nextState_flasher hlegal (hr n n.lt_succ_self)
    rw [hwait] at hnow hfstate hpin
    rw [after_succ']
    exact ⟨hfstate.trans hidle, hnow.trans hcursor, hpin.trans hlevel⟩

/-! ## The time to the deadline (R174, I4) -/

/-- The Flasher waits for a deadline that lies `d` cycles ahead, less than half the timer's range (R174). -/
structure State.DeadlineIn (s : State) (d : Nat) : Prop where
  legal    : s.cfg.legal = true
  time_lt  : s.time < 2 ^ s.cfg.timeWidth
  now_lt   : s.now < 2 ^ s.cfg.timeWidth
  busy     : s.fstate ≠ .idle
  ahead    : s.remaining = d
  near     : d < 2 ^ (s.cfg.timeWidth - 1)

/-- Under I4 the deadline is near enough. -/
theorem State.Inv.deadlineIn {s : State} (h : s.Inv) (hf : s.fstate ≠ .idle) : s.DeadlineIn s.remaining where
  legal := h.legal
  time_lt := h.time_lt
  now_lt := h.now_lt
  busy := hf
  ahead := rfl
  near := by
    have hahead := h.deadline hf
    obtain ⟨-, -, -, hrange, -⟩ := legal_bounds h.legal
    omega

/-- The deadline is reached exactly when no cycle is left. -/
theorem State.DeadlineIn.dl_iff {s : State} {d : Nat} (h : s.DeadlineIn d) : s.dl = true ↔ d = 0 := by
  obtain ⟨-, -, hwidth, -⟩ := legal_bounds h.legal
  have hnear := h.near
  rw [← h.ahead] at hnear ⊢
  exact reached_iff h.time_lt h.now_lt (by omega) hnear

/-- At the deadline the timer and the cursor are equal. -/
theorem State.DeadlineIn.time_eq_now_iff {s : State} {d : Nat} (h : s.DeadlineIn d) : s.time = s.now ↔ d = 0 := by
  rw [← h.ahead]
  exact (subMod_eq_zero h.time_lt h.now_lt).symm

/-- Settles O39: the difference is that of the integers, and under I4 it says how many cycles are left. -/
theorem deadlineIsReachedExactlyOnTime : Obligations.DeadlineIsReachedExactlyOnTime := by
  constructor
  · intro w time now
    rw [reached, decide_eq_true_iff, ← Int.ofNat_lt, subMod_cast]
    push_cast
    rfl
  · intro s hinv hf
    have hd := hinv.deadlineIn hf
    rw [hd.dl_iff, hd.time_eq_now_iff]

/-- A cycle before the deadline brings it one cycle nearer, and leaves the Flasher's registers (R180). -/
theorem State.DeadlineIn.wait {s : State} {d : Nat} (h : s.DeadlineIn (d + 1)) (hr : s.input.rst = false) :
    s.nextState.DeadlineIn d ∧ s.nextState.fstate = s.fstate ∧ s.nextState.now = s.now
      ∧ s.nextState.pin = s.pin := by
  have hearly : s.dl = false := by simp [← Bool.not_eq_true, h.dl_iff]
  obtain ⟨hnow, hfstate, hpin⟩ := nextState_flasher h.legal hr
  rw [flashed_early h.busy hearly] at hnow hfstate hpin
  have hcfg := nextState_cfg s
  have htime := nextState_time h.legal hr
  have hahead : subMod s.cfg.timeWidth s.now s.time = d + 1 := h.ahead
  refine ⟨⟨by rw [hcfg, h.legal], ?time_lt, by simp [hcfg, hnow, h.now_lt], by simp [hfstate, h.busy], ?ahead,
    ?near⟩, hfstate, hnow, hpin⟩
  case time_lt =>
    rw [hcfg, htime]
    exact wrap_lt _ _
  case ahead =>
    rw [State.remaining, hcfg, hnow, htime, subMod_nearer h.now_lt h.time_lt (by omega), hahead, Nat.add_sub_cancel]
  case near =>
    rw [hcfg]
    exact Nat.lt_of_succ_lt h.near

/-- A cycle that sets the deadline `n` cycles ahead, up to three units, leaves `n - 1` cycles for the next ones. -/
theorem deadlineIn_nextState {s : State} {n : Nat} (hl : s.cfg.legal = true) (hr : s.input.rst = false)
    (hf : s.nextState.fstate ≠ .idle) (hnow : s.nextState.now = wrap s.cfg.timeWidth (s.time + n)) (h1 : 1 ≤ n)
    (h3 : n ≤ 3 * s.cfg.unitTicks) : s.nextState.DeadlineIn (n - 1) := by
  have hcfg := nextState_cfg s
  have htime := nextState_time hl hr
  obtain ⟨-, -, -, hrange, -⟩ := legal_bounds hl
  have hhalf : 2 ^ (s.cfg.timeWidth - 1) ≤ 2 ^ s.cfg.timeWidth := Nat.pow_le_pow_right two_pos (Nat.sub_le _ _)
  refine ⟨by rw [hcfg, hl], ?time_lt, ?now_lt, hf, ?ahead, ?near⟩
  case time_lt =>
    rw [hcfg, htime]
    exact wrap_lt _ _
  case now_lt =>
    rw [hcfg, hnow]
    exact wrap_lt _ _
  case ahead =>
    rw [State.remaining, hcfg, hnow, htime]
    exact subMod_ahead s.time h1 (by omega)
  case near =>
    rw [hcfg]
    omega

/-- Up to the deadline the Flasher's registers stay, and every cycle brings it nearer. -/
theorem deadlineIn_after {s : State} {d k : Nat} (h : s.DeadlineIn d) (hk : k ≤ d) (hr : noReset k s) :
    (after k s).DeadlineIn (d - k) ∧ (after k s).fstate = s.fstate ∧ (after k s).now = s.now
      ∧ (after k s).pin = s.pin := by
  induction k with
  | zero => exact ⟨h, rfl, rfl, rfl⟩
  | succ k ih =>
    obtain ⟨hd, hfstate, hnow, hpin⟩ := ih (by omega) (noReset_mono hr k.le_succ)
    rw [show d - k = d - (k + 1) + 1 by omega] at hd
    obtain ⟨hd', hfstate', hnow', hpin'⟩ := hd.wait (hr k k.lt_succ_self)
    rw [after_succ']
    exact ⟨hd', hfstate'.trans hfstate, hnow'.trans hnow, hpin'.trans hpin⟩

/-- A phase of `n` cycles, begun in the cycle of `s`: the registers stay as the first cycle set them. -/
theorem phase_after {s : State} {n k : Nat} (h : s.nextState.DeadlineIn (n - 1)) (h1 : 1 ≤ k) (hk : k ≤ n)
    (hr : noReset n s) :
    (after k s).DeadlineIn (n - k) ∧ (after k s).fstate = s.nextState.fstate ∧ (after k s).now = s.nextState.now
      ∧ (after k s).pin = s.nextState.pin := by
  obtain ⟨j, rfl⟩ : ∃ j, k = 1 + j := ⟨k - 1, by omega⟩
  have hr' : noReset j s.nextState := noReset_after (m := 1) (noReset_mono hr hk)
  rw [Nat.sub_add_eq, after_add]
  exact deadlineIn_after h (by omega) hr'

/-! ## The waveform of one symbol (R181 to R184) -/

/-- A symbol is popped on time: its deadlines count from the cycle of the pop (R175, R178). -/
theorem base_eq_time {s : State} {x : Sym} (hinv : s.Inv) (hpop : s.popNow = some x) : s.base = s.time := by
  obtain ⟨-, hm⟩ := noReset_and_mayPop_of_popNow hpop
  cases hf : s.fstate with
  | idle => exact (mayPop_idle s hf).2
  | hold => simp [mayPop_hold s hf] at hm
  | gap =>
    obtain ⟨hm', hb⟩ := mayPop_gap s hf
    have hontime := deadlineIsReachedExactlyOnTime.2 s hinv (by simp [hf])
    rw [hb, ← hontime.1 (hm'.symm.trans hm)]

/-- The first phase: `d1` cycles of HOLD after the pop, with the symbol's pin level. -/
theorem hold_phase {s : State} {x : Sym} {k : Nat} (hinv : s.Inv) (hpop : s.popNow = some x) (h1 : 1 ≤ k)
    (hk : k ≤ d1 s.cfg x) (hr : noReset (d1 s.cfg x) s) :
    (after k s).DeadlineIn (d1 s.cfg x - k) ∧ (after k s).fstate = .hold
      ∧ (after k s).now = wrap s.cfg.timeWidth (s.base + d1 s.cfg x) ∧ (after k s).pin = x.isPulse := by
  obtain ⟨hrst, -⟩ := noReset_and_mayPop_of_popNow hpop
  obtain ⟨hnow, hfstate, hpin⟩ := nextState_flasher hinv.legal hrst
  rw [flashed_pop s x hpop] at hnow hfstate hpin
  have hd : s.nextState.DeadlineIn (d1 s.cfg x - 1) :=
    deadlineIn_nextState hinv.legal hrst (by simp [hfstate])
      (by rw [hnow, State.startSym_now, base_eq_time hinv hpop]) (by omega) (d1_bounds s.cfg x).2
  obtain ⟨hd', hfstate', hnow', hpin'⟩ := phase_after hd h1 hk hr
  exact ⟨hd', hfstate'.trans hfstate, hnow'.trans hnow, hpin'.trans hpin⟩

/-- The second phase: `d2` cycles of GAP after the deadline of HOLD, with the pin low. -/
theorem gap_phase {s : State} {k : Nat} (hd : s.DeadlineIn 0) (hf : s.fstate = .hold) (h1 : 1 ≤ k)
    (hk : k ≤ d2 s.cfg) (hr : noReset (d2 s.cfg) s) :
    (after k s).DeadlineIn (d2 s.cfg - k) ∧ (after k s).fstate = .gap
      ∧ (after k s).now = wrap s.cfg.timeWidth (s.now + d2 s.cfg) ∧ (after k s).pin = false := by
  have hrst : s.input.rst = false := hr 0 (by omega)
  obtain ⟨hnow, hfstate, hpin⟩ := nextState_flasher hd.legal hrst
  rw [flashed_hold s hf, if_pos (hd.dl_iff.2 rfl)] at hnow hfstate hpin
  have hnext : s.nextState.DeadlineIn (d2 s.cfg - 1) :=
    deadlineIn_nextState hd.legal hrst (by simp [hfstate])
      (by rw [hnow, State.endHold_now, hd.time_eq_now_iff.2 rfl]) (by omega) (by unfold d2; omega)
  obtain ⟨hd', hfstate', hnow', hpin'⟩ := phase_after hnext h1 hk hr
  exact ⟨hd', hfstate'.trans hfstate, hnow'.trans hnow, hpin'.trans hpin⟩

/-- At the deadline of GAP the Flasher pops the next symbol and goes to HOLD, or goes to IDLE (R178, R179). -/
theorem gap_ends {s : State} (hd : s.DeadlineIn 0) (hf : s.fstate = .gap) (hr : s.input.rst = false) :
    s.popNow = s.q.head? ∧ s.nextState.fstate = if s.q = [] then .idle else .hold := by
  have hdl : s.dl = true := hd.dl_iff.2 rfl
  obtain ⟨-, hfstate, -⟩ := nextState_flasher hd.legal hr
  refine ⟨popNow_of_mayPop hr ((mayPop_gap s hf).1.trans hdl), ?_⟩
  rw [hfstate, flashed_gap s hf, if_pos hdl]
  cases s.q <;> rfl

/-- Settles O51: `d1` cycles of HOLD lead to the deadline that begins `d2` cycles of GAP, and these to the deadline at
which the next symbol is popped. -/
theorem symbolHasItsWaveform : Obligations.SymbolHasItsWaveform := by
  intro s x hinv hpop hr
  obtain ⟨-, hunit, -⟩ := legal_bounds hinv.legal
  have hd1 : 1 ≤ d1 s.cfg x := hunit.trans (d1_bounds s.cfg x).1
  have hhold := fun k (h1 : 1 ≤ k) hk => hold_phase hinv hpop h1 hk (noReset_mono hr (by omega))
  obtain ⟨hd, hf, hnow, -⟩ := hhold (d1 s.cfg x) hd1 le_rfl
  rw [Nat.sub_self] at hd
  have hcfg : (after (d1 s.cfg x) s).cfg = s.cfg := after_cfg _ s
  have hgap := fun k (h1 : 1 ≤ k) hk =>
    gap_phase (k := k) hd hf h1 hk (hcfg.symm ▸ noReset_after (noReset_mono hr (by omega)))
  simp only [hcfg, hnow, wrap_wrap_add, ← after_add] at hgap
  obtain ⟨hd', hf', -⟩ := hgap (d2 s.cfg) hunit le_rfl
  rw [Nat.sub_self] at hd'
  obtain ⟨hnext, hend⟩ := gap_ends hd' hf' (hr _ (Nat.lt_succ_self _))
  refine ⟨?hold, ?gap, hnext, by rw [after_succ', hend]⟩
  case hold =>
    intro k h1 hk
    obtain ⟨-, hfstate, hcursor, hpin⟩ := hhold k h1 hk
    exact ⟨hfstate, hpin, popNow_of_not_mayPop (mayPop_hold _ hfstate), hcursor⟩
  case gap =>
    intro k h1 hk
    obtain ⟨j, rfl⟩ : ∃ j, k = d1 s.cfg x + j := ⟨k - d1 s.cfg x, by omega⟩
    obtain ⟨hdj, hfstate, hcursor, hpin⟩ := hgap j (by omega) (by omega)
    refine ⟨hfstate, hpin, fun hlt => popNow_of_not_mayPop (mayPop_early hdj.busy ?_), hcursor⟩
    rw [← Bool.not_eq_true, hdj.dl_iff]
    omega

end Sys2Proof.Machine
end

section
/-! Every step is defined: with legal parameters it goes on, with illegal ones it is refused, and it never faults (R200).
The timer counts in every cycle and is loaded with 0 by a reset (R208). -/

namespace Sys2Proof.Machine

/-- With legal parameters and a reset, the next state is the reset state (R230). -/
theorem step_reset {s : State} (hl : s.cfg.legal = true) (hr : s.input.rst = true) :
    step s = .next s.takeReset.nextInputs := by
  simp [step_eq s hl, hr]

/-- A step goes on or is refused. -/
theorem step_ne_fault (s : State) (f : Fault) : step s ≠ .fault f := by
  by_cases hl : s.cfg.legal = true
  · rw [step_eq s hl]
    exact nofun
  · rw [step_illegal s hl]
    exact nofun

/-- Settles O23: with legal parameters the step goes on by the law `step_eq`, and no step changes the parameters. -/
theorem everyStateHasANextState : Obligations.EveryStateHasANextState := by
  refine ⟨fun s hl => ?_, step_ne_fault⟩
  have hstep := step_eq s hl
  exact ⟨_, hstep, step_cfg hstep⟩

/-- Settles O40: a reset loads the timer with 0, and a cycle of the two units counts it. -/
theorem timerCountsEveryCycle : Obligations.TimerCountsEveryCycle := by
  intro s hl
  cases hr : s.input.rst with
  | true => exact ⟨_, step_reset hl hr, rfl⟩
  | false =>
    obtain ⟨-, htime, -⟩ := cycled_rest s
    exact ⟨_, step_noReset hl hr, htime⟩

end Sys2Proof.Machine
end

section
/-! Reset: what it leads to (R230), and the outputs in the reset cycle and in the cycle after it (R231). -/

namespace Sys2Proof.Machine

/-- Settles O41: the next state of the law `step_reset` has every element at its reset value. -/
theorem resetLoadsResetStateFromAnyState : Obligations.ResetLoadsResetStateFromAnyState := by
  intro s hl hr
  rw [step_reset hl hr]
  rfl

/-- In a reset cycle no port is granted (R231). -/
theorem gnt_of_reset {s : State} (hr : s.input.rst = true) (p : Nat) : s.gnt p = false := by
  simp [State.gnt, hr]

/-- In a reset cycle no port is ready (R231). -/
theorem inReady_of_reset {s : State} (hr : s.input.rst = true) (p : Nat) : s.inReady p = false := by
  simp [State.inReady, hr]

/-- In a reset cycle the signals that the ports see, `gnt` and `in_ready`, are low (R231). -/
theorem portOutputs_of_reset {s : State} (hr : s.input.rst = true) {b : Bool}
    (hb : b ∈ s.outputs.gnt ++ s.outputs.inReady) : b = false := by
  obtain hgnt | hready := List.mem_append.1 hb
  · obtain ⟨p, -, rfl⟩ := List.mem_map.1 hgnt
    exact gnt_of_reset hr p
  · obtain ⟨p, -, rfl⟩ := List.mem_map.1 hready
    exact inReady_of_reset hr p

/-- Settles O42: `rst` masks what the ports see, the other outputs are those of the registers, and the registers are
loaded for the next cycle by `step_reset`. -/
theorem outputsDuringAndAfterReset : Obligations.OutputsDuringAndAfterReset := by
  intro s hl hr
  exact ⟨fun p => ⟨gnt_of_reset hr p, inReady_of_reset hr p⟩, fun _ => portOutputs_of_reset hr, rfl, rfl, rfl,
    _, step_reset hl hr, rfl, rfl, rfl⟩

end Sys2Proof.Machine
end

section
/-! Codes: the words written out from the two formats, decode and encode as inverses of each other on whole codes and on
bytes (R80, R86, R89, R91), and the lengths of the expansions (R130, R131). -/

namespace Sys2Proof

open Laws

/-! ## Decode and encode (R80, R86, R89, R91) -/

/-- Settles O1: each word is small enough for the decoder to be evaluated on it. -/
theorem wordsOfEachFormatDecode : Obligations.WordsOfEachFormatDecode := by
  unfold Obligations.WordsOfEachFormatDecode
  decide

/-- Decoding a code gives back the well-formed instruction that it encodes, row by row of the opcode table. -/
theorem decode_encode : ∀ i : Instr, RoundTrip.Statement i
  | .letterA low => RoundTrip.letterA low
  | .letterB low => RoundTrip.letterB low
  | .letterC low => RoundTrip.letterC low
  | .letterD low => RoundTrip.letterD low
  | .letterE low => RoundTrip.letterE low
  | .letterF low => RoundTrip.letterF low
  | .letterG low => RoundTrip.letterG low
  | .letterH low => RoundTrip.letterH low
  | .letterI low => RoundTrip.letterI low
  | .letterJ low => RoundTrip.letterJ low
  | .letterK low => RoundTrip.letterK low
  | .letterL low => RoundTrip.letterL low
  | .letterM low => RoundTrip.letterM low
  | .letterN low => RoundTrip.letterN low
  | .letterO low => RoundTrip.letterO low
  | .letterP low => RoundTrip.letterP low
  | .letterQ low => RoundTrip.letterQ low
  | .letterR low => RoundTrip.letterR low
  | .letterS low => RoundTrip.letterS low
  | .letterT low => RoundTrip.letterT low
  | .letterU low => RoundTrip.letterU low
  | .letterV low => RoundTrip.letterV low
  | .letterW low => RoundTrip.letterW low
  | .letterX low => RoundTrip.letterX low
  | .letterY low => RoundTrip.letterY low
  | .letterZ low => RoundTrip.letterZ low
  | .spaceByte   => RoundTrip.spaceByte
  | .ignore b    => RoundTrip.ignore b
  | .dot         => RoundTrip.dot
  | .dash        => RoundTrip.dash
  | .eoc         => RoundTrip.eoc
  | .space       => RoundTrip.space

/-- A symbol's code, carried as one byte, has its two bits at the bottom and nothing above them. -/
theorem symByte_bits : ∀ c : SymCode,
    (c.zeroExtend 8).extractLsb' 2 6 = 0 ∧ (c.zeroExtend 8).extractLsb' 0 2 = c := by decide

/-- Decoding a code's byte, with any bytes after it, decodes the code and leaves these bytes. -/
theorem decodeBytes_toByte (c : Code) (rest : List Byte) :
    decodeBytes c.format (c.toByte :: rest) = .ok (decode c, rest) := by
  cases c with
  | byte8 b => rfl
  | sym2 c =>
    obtain ⟨hhigh, hlow⟩ := symByte_bits c
    simp only [Code.format, Code.toByte, decodeBytes, hhigh, if_true, hlow, decode]

/-- Settles O2: the bytes of an instruction decode as its code does, and its code decodes to it. -/
theorem decodeOfEncodeIsTheInstruction : Obligations.DecodeOfEncodeIsTheInstruction := by
  intro i rest hwf
  have hcode : decode (encode i) = i := decode_encode i hwf
  have hbytes := decodeBytes_toByte (encode i) rest
  rw [hcode] at hbytes
  exact ⟨hcode, hbytes⟩

/-- Each of the four symbol codes is the code of the instruction it decodes to. -/
theorem encode_decodeSym2 : ∀ c : SymCode, encode (decodeSym2 c) = .sym2 c ∧ (decodeSym2 c).wf = true := by decide

/-- Settles O3: in both formats the decoder loses nothing and answers well-formed instructions. -/
theorem encodeOfDecodeIsTheCode : Obligations.EncodeOfDecodeIsTheCode := by
  intro c
  cases c with
  | byte8 b => exact ⟨encode_decodeByte8 b, decodeByte8_wf b⟩
  | sym2 c => exact encode_decodeSym2 c

/-! ## Lengths of the expansions (R130, R131) -/

/-- A ROM word of kind LETTER that is not reserved has one to four elements (R84). -/
theorem nel_bounds {w : RomWord} (hkind : w.kind = 0b01) (hres : w.reserved ≠ true) : 1 ≤ w.nel ∧ w.nel ≤ 4 := by
  rw [Ne, reserved_iff] at hres
  have hline : ¬ (w.nel = 0 ∨ 4 < w.nel) := fun h => hres (.inr (.inl ⟨hkind, h⟩))
  omega

theorem memRead_not_reserved (b : Byte) : (memRead b).reserved ≠ true := fun hres =>
  reservedRomWordsAreRefusedAndNeverHeld.2 b ((expand_refused_iff _).2 hres)

/-- An element is a Dot or a Dash, never a SPACE (R83). -/
theorem elem_ne_space (w : RomWord) (i : Nat) : w.elem i ≠ .space := by
  unfold RomWord.elem
  split <;> decide

theorem count_space_enc_letter {b : Byte} (h : byteClass b = .letter) : (enc b).count .space = 0 := by
  simp [enc_letter h, List.count_eq_zero, elem_ne_space]

/-- Settles O8: a letter has its elements and then the EOC, the other two classes expand to a fixed list. -/
theorem expansionLengthsAndOneEoc : Obligations.ExpansionLengthsAndOneEoc := by
  intro b
  refine ⟨fun hletter => ?letter, fun hspace => ?space, enc_ignore⟩
  case letter =>
    have hlen := length_enc_letter hletter
    have hnel := nel_bounds ((memRead_kind_iff b .letter).2 hletter) (memRead_not_reserved b)
    exact ⟨hlen, by omega, by omega, count_eoc_enc_letter hletter, getLast?_enc_letter hletter,
      count_space_enc_letter hletter⟩
  case space => rw [(byteClass_eq_space_iff b).1 hspace, enc_space]

end Sys2Proof
end

section
/-! The instructions one at a time: what executing a byte or a symbol leaves unchanged (R37, R211), where it changes nothing
(R149, R176, R180), and the step in which it runs (R37, R142). -/

namespace Sys2Proof.Machine

/-! ## Frames (R37, R211) -/

/-- Settles O14: a byte instruction accepts a byte, which no port is ready for. -/
theorem byteWithoutReadyPortChangesNothing : Obligations.ByteWithoutReadyPortChangesNothing := by
  intro i s hi hready
  obtain ⟨b, -, hexec⟩ := Laws.exec_byte8 i hi
  rw [hexec, acceptByte_notReady b s hready]

/-- Settles O15: a byte instruction accepts a byte or does nothing, and the frame of an acceptance is known. -/
theorem byteInstructionsLeaveTheFlasherAlone : Obligations.ByteInstructionsLeaveTheFlasherAlone := by
  intro i s t hi ht
  obtain ⟨b, -, hexec⟩ := Laws.exec_byte8 i hi
  rw [hexec] at ht
  obtain ⟨hsame, -⟩ | ⟨p, -, hacc⟩ := acceptByte_cases b s
  · cases hsame.symm.trans ht
    simp
  · cases hacc.symm.trans ht
    exact accept_frame s b _

/-- Settles O18: popping a symbol asks that the Flasher takes one and that the symbol is at the head. -/
theorem symbolsWaitForTheirTurn : Obligations.SymbolsWaitForTheirTurn := by
  intro x s hwait
  have hnot : ¬ (s.mayPop = true ∧ s.q.head? = some x) := by
    rintro ⟨hm, hhead⟩
    obtain hf | ⟨hf, hd⟩ | hother := hwait
    · simp [mayPop_hold s hf] at hm
    · rw [(mayPop_gap s hf).1, State.dl, hd] at hm
      cases hm
    · exact hother hhead
  rw [Laws.exec_decodeSym2, popSym, if_neg hnot]

/-- Settles O19: a symbol instruction starts a symbol or does nothing. -/
theorem symbolInstructionsLeaveTheIngestUnitAlone : Obligations.SymbolInstructionsLeaveTheIngestUnitAlone := by
  intro i s t hi ht
  obtain ⟨x, -, hexec⟩ := Laws.exec_sym2 i hi
  rw [hexec] at ht
  obtain ⟨hpop, -⟩ | ⟨hsame, -⟩ := popSym_cases x s
  · cases hpop.symm.trans ht
    simp
  · cases hsame.symm.trans ht
    simp

/-! ## The step in which an instruction runs (R37, R142) -/

/-- With legal parameters and no reset, the step is the ingest unit's action, the Flasher's, and the push. -/
theorem step_units {s : State} (hl : s.cfg.legal = true) (hr : s.input.rst = false) :
    step s = thenDo (ingestStep s) fun s1 =>
      thenDo (flasherStep s1) fun s2 => .next (s2.pushSym s.enqSym).tick.nextInputs := by
  simp [step, runCycle, hl, hr]

/-- Settles O20: the ingest unit executes the byte that transfers, and an empty sequencer pushes nothing. -/
theorem stepRunsTheTransferredByte : Obligations.StepRunsTheTransferredByte := by
  intro s p hl hr ho hs hv
  have hingest : ingestStep s = exec (decodeByte8 (s.port p).byte) s := by
    simp [ingestStep, ho, hs, transfers_eq_valid hr ho hs, hv]
  have hpush : s.enqSym = none := by rw [← pushNow_noReset s hr, pushNow_of_seq_empty hs]
  rw [step_units hl hr, hingest, hpush]
  rfl

/-- The Flasher executes the symbol at the head of the queue in the cycles in which it takes one. -/
theorem flasherStep_of_mayPop {s : State} {x : Sym} {rest : List Sym} (hm : s.mayPop = true) (hq : s.q = x :: rest) :
    flasherStep s = exec (decodeSym2 x.code) s := by
  unfold flasherStep
  cases hf : s.fstate with
  | idle => simp [hq]
  | hold => simp [mayPop_hold s hf] at hm
  | gap => simp [hq, ← (mayPop_gap s hf).1, hm]

/-- Whether the Flasher takes a symbol is not for the ingest unit to change. -/
theorem ingested_mayPop (s : State) : s.ingested.mayPop = s.mayPop := by
  obtain ⟨hc, ht, hn, hf, -⟩ := ingested_frame s
  simp [State.mayPop, State.dl, hc, ht, hn, hf]

/-- Settles O21: after the ingest unit, which leaves what the Flasher reads, the Flasher executes the head. -/
theorem stepRunsThePoppedSymbol : Obligations.StepRunsThePoppedSymbol := by
  intro s x rest hl hr hq hturn
  have hm : s.mayPop = true := by
    obtain hf | ⟨hf, hd⟩ := hturn
    · exact (mayPop_idle s hf).1
    · exact (mayPop_gap s hf).1.trans hd
  obtain ⟨-, -, -, -, -, hq', -⟩ := ingested_frame s
  have hflash := flasherStep_of_mayPop ((ingested_mayPop s).trans hm) (hq'.trans hq)
  rw [step_units hl hr, ingestStep_eq]
  simp only [thenDo, hflash]

/-! ## Illegal parameters (R6) -/

/-- The legal parameters are the ones within R6's bounds. -/
theorem legal_iff (c : Config) :
    c.legal = true ↔ 1 ≤ c.depth ∧ 1 ≤ c.unitTicks ∧ 2 ≤ c.timeWidth
      ∧ 3 * c.unitTicks < 2 ^ (c.timeWidth - 1) ∧ 1 ≤ c.nProd ∧ 1 ≤ c.fClk := by
  simp [Config.legal, and_assoc]

/-- Settles O24: the step goes on with legal parameters, and is refused so with all others. -/
theorem illegalConfigurationsAreRefused : Obligations.IllegalConfigurationsAreRefused := by
  intro s
  rw [← legal_iff]
  constructor
  · intro hrefused hl
    cases (step_eq s hl).symm.trans hrefused
  · exact step_illegal s

end Sys2Proof.Machine
end

section
/-! The lock and the invariants: all that one action of the ingest unit can be, from which follow how the lock changes hands
(R143, R146, R147) and that I1 to I5 are kept (R36). -/

namespace Sys2Proof.Machine

/-! ## The grants of one cycle (R35, R142) -/

/-- Settles O29: a granted port is the lock's holder, and a port that is ready or transfers is granted. -/
theorem atMostOneProducerIsGranted : Obligations.AtMostOneProducerIsGranted := by
  have hholder : ∀ (s : State) (p : Nat), s.gnt p = true ↔ s.input.rst = false ∧ s.owner = some p := by
    intro s p
    simp [State.gnt]
  have hready : ∀ (s : State) (p : Nat), s.inReady p = true → s.gnt p = true := by
    intro s p h
    obtain ⟨hr, ho, -⟩ := (s.inReady_iff p).1 h
    exact (hholder s p).2 ⟨hr, ho⟩
  have hunique : ∀ (s : State) (p p' : Nat), s.owner = some p → s.owner = some p' → p = p' :=
    fun _ _ _ h h' => Option.some.inj (h.symm.trans h')
  intro s p p'
  refine ⟨fun h h' => hunique s p p' ((hholder s p).1 h).2 ((hholder s p').1 h').2, hready s p, fun h h' => ?_⟩
  obtain ⟨-, -, ho, -⟩ := (s.transfers_iff p).1 h
  obtain ⟨-, -, ho', -⟩ := (s.transfers_iff p').1 h'
  exact hunique s p p' ho ho'

/-! ## The round robin (R144, R154) -/

/-- The place of a producer in the search order is the only one below `n` that the order gives it. -/
theorem waitRank_eq {n last p j : Nat} (hp : p < n) (hj : j < n) (h : (last + 1 + j) % n = p) :
    waitRank n last p = j := by
  have hmod : last + 1 + waitRank n last p ≡ last + 1 + j [MOD n] := (rrOrder_waitRank last hp).trans h.symm
  have hrank : waitRank n last p < n := Nat.mod_lt _ (by omega)
  exact Nat.ModEq.eq_of_lt_of_lt (Nat.ModEq.add_left_cancel' _ hmod) hrank hj

/-- Settles O28: the producer picked stands at a place `k - 1` that is at most the requester's, and the requester's next
place counts from there. -/
theorem waitingProducerMovesUpAtEveryGrant : Obligations.WaitingProducerMovesUpAtEveryGrant := by
  intro n last p g req hp hreq hpick
  have hrank : waitRank n last p < n := Nat.mod_lt _ (by omega)
  have hplace := rrOrder_waitRank last hp
  obtain ⟨k, h1, -, hg, -, hearlier⟩ := rrPick_some hpick
  have hk : k ≤ waitRank n last p + 1 := by
    by_contra hlt
    have hidle := hearlier (1 + waitRank n last p) (by omega) (by omega)
    rw [← Nat.add_assoc, hplace, hreq] at hidle
    cases hidle
  have hself : k = waitRank n last p + 1 → g = p := by
    rintro rfl
    rw [hg, show last + (waitRank n last p + 1) = last + 1 + waitRank n last p by omega, hplace]
  refine ⟨hrank, fun h0 => hself (by omega), fun hne => ?_⟩
  have hlt : k ≤ waitRank n last p := by
    have : k ≠ waitRank n last p + 1 := fun h => hne (hself h)
    omega
  have hnext : waitRank n g p = waitRank n last p - k := by
    refine waitRank_eq hp (by omega) ?_
    rw [hg, Nat.add_assoc, Nat.mod_add_mod,
      show last + k + (1 + (waitRank n last p - k)) = last + 1 + waitRank n last p by omega, hplace]
  omega

/-! ## All that one action of the ingest unit can be (R143, R145 to R148) -/

/-- The pick of the round robin is a producer that requests. -/
theorem grantee_some {s : State} {g : Nat} (hl : s.cfg.legal = true) (h : s.grantee = some g) :
    g < s.cfg.nProd ∧ (s.port g).req = true := by
  obtain ⟨k, -, -, hg, hreq, -⟩ := rrPick_some h
  obtain ⟨-, -, -, -, hprod, -⟩ := legal_bounds hl
  exact ⟨hg ▸ Nat.mod_lt _ (by omega), hreq⟩

/-- A byte is transferred in a cycle exactly when the holder's port transfers it. -/
theorem acceptNow_of_owner {s : State} {p : Nat} (ho : s.owner = some p) :
    s.acceptNow = if s.transfers p then some (s.port p).byte else none := by
  simp [State.acceptNow, ho]

/-- Symbols in the sequencer keep the port from transferring. -/
theorem acceptNow_of_busy {s : State} (hs : s.seq ≠ []) : s.acceptNow = none := by
  unfold State.acceptNow
  cases s.owner with
  | none => rfl
  | some p => simp [State.transfers, State.inReady, hs]

/-- While the lock is free nothing is pushed or transferred. -/
theorem nothing_of_free {s : State} (ho : s.owner = none) : s.pushNow = none ∧ s.acceptNow = none := by
  simp [State.pushNow, State.enqSym, State.acceptNow, ho]

/-- The ingest unit waits: it writes nothing, pushes nothing and takes no byte. -/
def State.IngestWaits (s : State) : Prop :=
  s.ingested = s ∧ s.pushNow = none ∧ s.acceptNow = none

/-- The ingest unit grants the free lock to `g`. -/
def State.IngestGrants (s : State) (g : Nat) : Prop :=
  s.owner = none ∧ s.grantee = some g ∧ s.ingested = s.grantTo g ∧ s.pushNow = none ∧ s.acceptNow = none

/-- The ingest unit accepts the byte on the port of the holder `p`. -/
def State.IngestAccepts (s : State) (p : Nat) : Prop :=
  s.owner = some p ∧ s.seq = [] ∧ s.ingested = s.accept (s.port p).byte (s.port p).last ∧ s.pushNow = none
    ∧ s.acceptNow = some (s.port p).byte

/-- The ingest unit pushes `x`, of the holder `p`, and `rest` is left in the sequencer. -/
def State.IngestPushes (s : State) (p : Nat) (x : Sym) (rest : List Sym) : Prop :=
  s.owner = some p ∧ s.seq = x :: rest ∧ s.ingested = s.dropSeq ∧ s.pushNow = some x ∧ s.acceptNow = none

/-- In a cycle without a reset, the ingest unit does one of four things. -/
theorem ingest_cases {s : State} (hr : s.input.rst = false) :
    s.IngestWaits ∨ (∃ g, s.IngestGrants g) ∨ (∃ p, s.IngestAccepts p) ∨ ∃ p x rest, s.IngestPushes p x rest := by
  cases ho : s.owner with
  | none =>
    have hingest := ingested_free s ho
    cases hg : s.grantee with
    | none => exact .inl ⟨by rw [hingest, hg], nothing_of_free ho⟩
    | some g => exact .inr (.inl ⟨g, ho, hg, by rw [hingest, hg], nothing_of_free ho⟩)
  | some p =>
    cases hs : s.seq with
    | nil =>
      have hingest := ingested_ready s p ho hs
      have haccept := acceptNow_of_owner ho
      have hpush := pushNow_of_seq_empty hs
      cases ht : s.transfers p with
      | false => exact .inl ⟨by simp [hingest, ht], hpush, by simp [haccept, ht]⟩
      | true => exact .inr (.inr (.inl ⟨p, ho, hs, by simp [hingest, ht], hpush, by simp [haccept, ht]⟩))
    | cons x rest =>
      have hbusy : s.seq ≠ [] := by simp [hs]
      have hingest := ingested_busy s p ho hbusy
      have haccept := acceptNow_of_busy hbusy
      have hpush := pushNow_of_busy hr ho hs
      cases hroom : s.hasRoom with
      | false => exact .inl ⟨by simp [hingest, hroom], by simp [hpush, hroom], haccept⟩
      | true => exact .inr (.inr (.inr ⟨p, x, rest, ho, hs, by simp [hingest, hroom], by simp [hpush, hroom], haccept⟩))

/-- From an empty sequencer, an accepted byte leaves its expansion there, also if it releases the lock. -/
theorem accept_seq {s : State} (hs : s.seq = []) (b : Byte) (last : Bool) : (s.accept b last).seq = enc b := by
  unfold State.accept
  split
  · next hrel => simp [hs, hrel.1]
  · rfl

/-- An accepted byte releases the lock exactly if it is final and without symbols (R146). -/
theorem accept_owner (s : State) (b : Byte) (last : Bool) :
    (s.accept b last).owner = if enc b = [] ∧ last = true then none else s.owner := by
  unfold State.accept
  split <;> rfl

/-- Settles O27: a grant is the only action that takes the lock, and the acceptance of a byte and the push of a symbol
are the only ones that release it. -/
theorem lockPassesOnlyThroughFree : Obligations.LockPassesOnlyThroughFree := by
  intro s t hstep hr
  obtain ⟨hl, ⟨hr', -⟩ | ⟨-, rfl⟩⟩ := step_cases hstep
  · rw [hr] at hr'
    cases hr'
  obtain ⟨howner, hrr, hseq, -⟩ := cycled_ingest s
  rw [howner, hrr, hseq]
  obtain ⟨hsame, -⟩ | ⟨g, ho, hg, hgrant, -⟩ | ⟨p, ho, hs, hacc, -, haccept⟩ | ⟨p, x, rest, ho, hs, hdrop, hpush, -⟩ :=
    ingest_cases hr
  · rw [hsame]
    exact ⟨fun p p' h h' => Option.some.inj (h'.symm.trans h), fun p h h' => (nomatch h.symm.trans h'),
      fun p h h' => (nomatch h.symm.trans h')⟩
  · rw [hgrant]
    simpa [ho] using grantee_some hl hg
  · rw [hacc, accept_seq hs, accept_owner]
    obtain ⟨-, -, -, -, -, -, hrr', -⟩ := accept_frame s (s.port p).byte (s.port p).last
    split
    · next hrel =>
      obtain ⟨henc, hlast⟩ := hrel
      refine ⟨nofun, nofun, fun q hq _ => ⟨henc, hrr', .inr ⟨_, haccept, henc, ?_⟩⟩⟩
      rw [← Option.some.inj (ho.symm.trans hq), hlast]
    · simp [ho]
  · rw [hdrop, State.dropSeq_owner, hs, List.tail_cons, ho]
    split
    · next hrel => simp [hs, hrel, hpush]
    · simp

end Sys2Proof.Machine
end

section
/-! The invariants I1 to I5 (R36): they hold after reset, and every step keeps them. The ingest unit's part follows from the
four things it can do, the Flasher's from the five that it can do. -/

namespace Sys2Proof.Machine

/-! ## All that one action of the Flasher can be (R175 to R180) -/

/-- The Flasher stays in IDLE with an empty queue (R176). -/
def State.FlasherIdles (s : State) : Prop := s.fstate = .idle ∧ s.flashed = s ∧ s.mayPop = true

/-- The Flasher waits for its deadline (R180). -/
def State.FlasherWaits (s : State) : Prop := s.fstate ≠ .idle ∧ s.dl = false ∧ s.flashed = s

/-- The Flasher ends the first phase (R177). -/
def State.FlasherEndsHold (s : State) : Prop := s.fstate = .hold ∧ s.dl = true ∧ s.flashed = s.endHold

/-- The Flasher finds the queue empty at the end of the gap (R179). -/
def State.FlasherGoesIdle (s : State) : Prop := s.fstate = .gap ∧ s.mayPop = true ∧ s.flashed = s.goIdle

/-- In a cycle without a reset, the Flasher pops a symbol or does one of four other things. -/
theorem flasher_cases {s : State} (hr : s.input.rst = false) :
    (∃ x, s.popNow = some x) ∨ s.FlasherIdles ∨ s.FlasherWaits ∨ s.FlasherEndsHold ∨ s.FlasherGoesIdle := by
  by_cases hd : s.fstate ≠ .idle ∧ s.dl = false
  · exact .inr (.inr (.inl ⟨hd.1, hd.2, flashed_early hd.1 hd.2⟩))
  cases hf : s.fstate with
  | hold =>
    have hdl : s.dl = true := by simpa [hf] using hd
    exact .inr (.inr (.inr (.inl ⟨hf, hdl, by rw [flashed_hold s hf, if_pos hdl]⟩)))
  | idle =>
    have hm := (mayPop_idle s hf).1
    have hpop := popNow_of_mayPop hr hm
    cases hq : s.q with
    | nil => exact .inr (.inl ⟨hf, by rw [flashed_idle s hf, hq], hm⟩)
    | cons x rest => exact .inl ⟨x, by rw [hpop, hq, List.head?_cons]⟩
  | gap =>
    have hdl : s.dl = true := by simpa [hf] using hd
    have hm : s.mayPop = true := (mayPop_gap s hf).1.trans hdl
    have hpop := popNow_of_mayPop hr hm
    cases hq : s.q with
    | nil => exact .inr (.inr (.inr (.inr ⟨hf, hm, by rw [flashed_gap s hf, if_pos hdl, hq]⟩)))
    | cons x rest => exact .inl ⟨x, by rw [hpop, hq, List.head?_cons]⟩

/-! ## The deadline after each action (R175, R177, R178) -/

/-- A popped symbol sets a deadline `d1` cycles ahead, counted from the pop. -/
theorem deadlineIn_of_pop {s : State} {x : Sym} (hinv : s.Inv) (hpop : s.popNow = some x) :
    s.nextState.fstate = .hold ∧ s.nextState.DeadlineIn (d1 s.cfg x - 1) := by
  obtain ⟨hr, -⟩ := noReset_and_mayPop_of_popNow hpop
  obtain ⟨hnow, hfstate, -⟩ := nextState_flasher hinv.legal hr
  rw [flashed_pop s x hpop] at hnow hfstate
  obtain ⟨-, hunit, -⟩ := legal_bounds hinv.legal
  obtain ⟨hmin, hmax⟩ := d1_bounds s.cfg x
  refine ⟨hfstate, deadlineIn_nextState hinv.legal hr (by simp [hfstate]) ?_ (hunit.trans hmin) hmax⟩
  rw [hnow, State.startSym_now, base_eq_time hinv hpop]

/-- The end of the first phase sets a deadline `d2` cycles ahead. -/
theorem deadlineIn_of_endHold {s : State} (hinv : s.Inv) (hr : s.input.rst = false) (h : s.FlasherEndsHold) :
    s.nextState.fstate = .gap ∧ s.nextState.DeadlineIn (d2 s.cfg - 1) := by
  obtain ⟨hf, hdl, hflash⟩ := h
  obtain ⟨hnow, hfstate, -⟩ := nextState_flasher hinv.legal hr
  rw [hflash] at hnow hfstate
  obtain ⟨-, hunit, -⟩ := legal_bounds hinv.legal
  have hontime : s.time = s.now := (deadlineIsReachedExactlyOnTime.2 s hinv (by simp [hf])).1 hdl
  refine ⟨hfstate, deadlineIn_nextState hinv.legal hr (by simp [hfstate]) ?_ hunit (by unfold d2; omega)⟩
  rw [hnow, State.endHold_now, hontime]

/-- A cycle in which the Flasher waits leaves one cycle less, and the control state as it was. -/
theorem deadlineIn_of_wait {s : State} (hinv : s.Inv) (hr : s.input.rst = false) (h : s.FlasherWaits) :
    s.nextState.fstate = s.fstate ∧ s.nextState.DeadlineIn (s.remaining - 1) ∧ 1 ≤ s.remaining := by
  obtain ⟨hf, hdl, -⟩ := h
  have hd := hinv.deadlineIn hf
  have hpos : s.remaining ≠ 0 := by rw [Ne, ← hd.dl_iff, hdl]; exact Bool.false_ne_true
  obtain ⟨d, hrem⟩ := Nat.exists_eq_succ_of_ne_zero hpos
  rw [hrem] at hd ⊢
  obtain ⟨hd', hfstate, -⟩ := hd.wait hr
  exact ⟨hfstate, hd', Nat.succ_pos d⟩

/-- I4 after a cycle without a reset: outside IDLE the next deadline is less than three units ahead. -/
theorem nextState_deadline {s : State} (hinv : s.Inv) (hr : s.input.rst = false) (hf : s.nextState.fstate ≠ .idle) :
    s.nextState.remaining ≤ 3 * s.cfg.unitTicks - 1 := by
  obtain ⟨-, hfstate, -⟩ := nextState_flasher hinv.legal hr
  obtain ⟨x, hpop⟩ | ⟨hidle, hflash, -⟩ | hwait | hend | ⟨-, -, hflash⟩ := flasher_cases hr
  · obtain ⟨-, hd⟩ := deadlineIn_of_pop hinv hpop
    obtain ⟨-, hmax⟩ := d1_bounds s.cfg x
    rw [hd.ahead]
    omega
  · rw [hfstate, hflash] at hf
    exact absurd hidle hf
  · obtain ⟨-, hd, -⟩ := deadlineIn_of_wait hinv hr hwait
    have hold := hinv.deadline hwait.1
    rw [hd.ahead]
    omega
  · obtain ⟨-, hd⟩ := deadlineIn_of_endHold hinv hr hend
    rw [hd.ahead, d2]
    omega
  · rw [hfstate, hflash] at hf
    exact absurd rfl hf

/-! ## The Flasher's part of the invariants -/

/-- After the Flasher's action the cursor is in range and the pin is high only in HOLD (R23, I5). -/
theorem flashed_now_pin {s : State} (hinv : s.Inv) (hr : s.input.rst = false) :
    s.flashed.now < 2 ^ s.cfg.timeWidth ∧ (s.flashed.pin = true → s.flashed.fstate = .hold) := by
  obtain ⟨x, hpop⟩ | ⟨-, hflash, -⟩ | ⟨-, -, hflash⟩ | ⟨-, -, hflash⟩ | ⟨hf, -, hflash⟩ := flasher_cases hr
  · rw [flashed_pop s x hpop]
    exact ⟨wrap_lt _ _, fun _ => rfl⟩
  · rw [hflash]
    exact ⟨hinv.now_lt, hinv.pin_hold⟩
  · rw [hflash]
    exact ⟨hinv.now_lt, hinv.pin_hold⟩
  · rw [hflash]
    exact ⟨wrap_lt _ _, nofun⟩
  · rw [hflash]
    refine ⟨hinv.now_lt, fun hpin => ?_⟩
    have hhold := hinv.pin_hold hpin
    rw [hf] at hhold
    cases hhold

/-! ## The ingest unit's part of the invariants -/

/-- The lock, the round-robin pointer and the sequencer meet their invariants: R27, R28, I2 and I3. -/
structure State.IngestInv (s : State) : Prop where
  owner_lt   : ∀ p, s.owner = some p → p < s.cfg.nProd
  rr_lt      : s.rrLast < s.cfg.nProd
  free_seq   : s.owner = none → s.seq = []
  seq_suffix : s.seq ≠ [] → ∃ b, s.seq <:+ enc b

theorem State.Inv.ingestInv {s : State} (h : s.Inv) : s.IngestInv :=
  ⟨h.owner_lt, h.rr_lt, h.free_seq, h.seq_suffix⟩

/-- An accepted byte leaves its whole expansion, or none of it where it releases the lock. -/
theorem ingestInv_of_accepts {s : State} {p : Nat} (h : s.IngestInv) (hacc : s.IngestAccepts p) :
    s.ingested.IngestInv := by
  obtain ⟨ho, hs, hingest, -⟩ := hacc
  rw [hingest, State.accept]
  split
  · exact ⟨nofun, h.rr_lt, fun _ => hs, h.seq_suffix⟩
  · exact ⟨h.owner_lt, h.rr_lt, fun hfree => (nomatch ho.symm.trans hfree), fun _ => ⟨_, List.suffix_refl _⟩⟩

/-- A push leaves a shorter end of the same expansion, and releases the lock only with nothing left. -/
theorem ingestInv_of_pushes {s : State} {p : Nat} {x : Sym} {rest : List Sym} (h : s.IngestInv)
    (hpush : s.IngestPushes p x rest) : s.ingested.IngestInv := by
  obtain ⟨ho, hs, hingest, -⟩ := hpush
  obtain ⟨b, hsuffix⟩ := h.seq_suffix (by simp [hs])
  rw [hingest]
  refine ⟨fun p' hp' => ?owner_lt, h.rr_lt, fun hfree => ?free_seq, fun _ => ⟨b, (List.tail_suffix _).trans hsuffix⟩⟩
  case owner_lt =>
    rw [State.dropSeq_owner] at hp'
    split at hp'
    · cases hp'
    · exact h.owner_lt p' hp'
  case free_seq =>
    rw [State.dropSeq_owner] at hfree
    split at hfree
    · next hrel => exact hrel.1
    · exact (nomatch ho.symm.trans hfree)

/-- The ingest unit's action keeps its part of the invariants. -/
theorem ingested_ingestInv {s : State} (hl : s.cfg.legal = true) (h : s.IngestInv) (hr : s.input.rst = false) :
    s.ingested.IngestInv := by
  obtain ⟨hsame, -⟩ | ⟨g, ho, hg, hgrant, -⟩ | ⟨p, hacc⟩ | ⟨p, x, rest, hpush⟩ := ingest_cases hr
  · rwa [hsame]
  · obtain ⟨hlt, -⟩ := grantee_some hl hg
    rw [hgrant]
    exact ⟨fun p hp => Option.some.inj hp ▸ hlt, hlt, nofun, h.seq_suffix⟩
  · exact ingestInv_of_accepts h hacc
  · exact ingestInv_of_pushes h hpush

/-! ## The queue's part of the invariants -/

/-- I1 after a cycle without a reset: a push asks for room at the start of the cycle. -/
theorem cycled_capacity {s : State} (h : s.q.length ≤ s.cfg.depth) (hr : s.input.rst = false) :
    s.cycled.q.length ≤ s.cfg.depth := by
  have hpop : (if s.popNow.isSome then s.q.tail else s.q).length ≤ s.q.length := by
    split <;> simp
  rw [cycled_q hr, List.length_append]
  cases hpush : s.pushNow with
  | none => simpa using hpop.trans h
  | some x =>
    obtain ⟨hroom, -⟩ := pushNow_some hpush
    simp only [Option.toList_some, List.length_singleton]
    omega

/-! ## Reset and one step -/

/-- After reset everything is empty, low, free and 0, and `rr_last` is the last producer (R21). -/
theorem resetOf_inv {c : Config} (hl : c.legal = true) : (State.resetOf c).Inv where
  legal := hl
  time_lt := Nat.two_pow_pos _
  now_lt := Nat.two_pow_pos _
  owner_lt := nofun
  rr_lt := by
    obtain ⟨-, -, -, -, hprod, -⟩ := legal_bounds hl
    exact Nat.sub_one_lt_of_lt hprod
  capacity := Nat.zero_le _
  free_seq := fun _ => rfl
  seq_suffix := fun h => absurd rfl h
  deadline := fun h => absurd rfl h
  pin_hold := nofun

/-- The invariants do not read the environment's inputs. -/
theorem State.Inv.with_inputs {s : State} (h : s.Inv) (i : List Inputs) (k : Nat) :
    State.Inv { s with inputs := i, cycle := k } :=
  ⟨h.legal, h.time_lt, h.now_lt, h.owner_lt, h.rr_lt, h.capacity, h.free_seq, h.seq_suffix, h.deadline, h.pin_hold⟩

/-- A cycle without a reset keeps the invariants. -/
theorem cycled_inv {s : State} (hinv : s.Inv) (hr : s.input.rst = false) : s.cycled.Inv := by
  obtain ⟨hcfg, htime, -⟩ := cycled_rest s
  obtain ⟨hnow, hfstate, hpin, -⟩ := cycled_flasher s
  obtain ⟨howner, hrr, hseq, -⟩ := cycled_ingest s
  obtain ⟨hnow_lt, hpin_hold⟩ := flashed_now_pin hinv hr
  have hingest := ingested_ingestInv hinv.legal hinv.ingestInv hr
  obtain ⟨hicfg, -⟩ := ingested_frame s
  have hdeadline := nextState_deadline hinv hr
  rw [nextState_cycled s hinv.legal hr] at hdeadline
  exact {
    legal := by rw [hcfg, hinv.legal]
    time_lt := by rw [hcfg, htime]; exact wrap_lt _ _
    now_lt := by rw [hcfg, hnow]; exact hnow_lt
    owner_lt := by rw [hcfg, howner, ← hicfg]; exact hingest.owner_lt
    rr_lt := by rw [hcfg, hrr, ← hicfg]; exact hingest.rr_lt
    capacity := by rw [hcfg]; exact cycled_capacity hinv.capacity hr
    free_seq := by rw [howner, hseq]; exact hingest.free_seq
    seq_suffix := by rw [hseq]; exact hingest.seq_suffix
    deadline := by rw [hcfg]; exact hdeadline
    pin_hold := by rw [hpin, hfstate]; exact hpin_hold }

/-- Settles O43: the reset state is written out in these values. -/
theorem resetValuesOfEveryElement : Obligations.ResetValuesOfEveryElement :=
  ⟨rfl, fun _ => ⟨rfl, rfl, rfl, rfl, rfl, rfl, rfl, rfl, rfl⟩⟩

/-- Settles O44: the reset state meets the invariants, in the reference configuration too, which is legal. -/
theorem resetStateMeetsTheInvariants : Obligations.ResetStateMeetsTheInvariants :=
  ⟨fun _ => resetOf_inv, resetOf_inv (by decide)⟩

/-- Settles O45: a step is a reset, after which they hold, or a cycle of the two units and the queue, each of which keeps
its part of them. -/
theorem everyStepKeepsTheInvariants : Obligations.EveryStepKeepsTheInvariants := by
  intro s t hinv hstep
  obtain ⟨hl, ⟨-, rfl⟩ | ⟨hr, rfl⟩⟩ := step_cases hstep
  · exact (resetOf_inv hl).with_inputs _ _
  · exact cycled_inv hinv hr

/-! ## Runs -/

/-- With legal parameters the step leads to the next state. -/
theorem step_eq_nextState {s : State} (hl : s.cfg.legal = true) : step s = .next s.nextState := by
  have hstep := step_eq s hl
  rw [nextState_of_step hstep, hstep]

/-- The invariants hold at every point of a run from a state that meets them. -/
theorem after_inv {s : State} (hinv : s.Inv) (n : Nat) : (after n s).Inv := by
  induction n with
  | zero => exact hinv
  | succ n ih =>
    rw [after_succ']
    exact everyStepKeepsTheInvariants _ _ ih (step_eq_nextState ih.legal)

/-- Settles O46: each of the steps goes on, since no step changes the parameters. -/
theorem runsNeverStop : Obligations.RunsNeverStop := by
  intro s n hl
  refine ⟨?_, after_cfg n s⟩
  induction n generalizing s with
  | zero => rfl
  | succ n ih =>
    have hstep : core.step s = .next s.nextState := step_eq_nextState hl
    simp only [Host.Core.run, hstep]
    exact ih s.nextState ((congrArg Config.legal (nextState_cfg s)).trans hl)

end Sys2Proof.Machine
end

section
/-! Runs of the queue and the sequencer: what goes in comes out, once and in order (R59, R60, R129), a message is pushed as a
whole between its grant and its release (R153), and a byte is pushed without a pause (R236). -/

namespace Sys2Proof.Machine

theorem nextState_legal {s : State} (hl : s.cfg.legal = true) : s.nextState.cfg.legal = true := by
  rw [nextState_cfg, hl]

/-- The first cycle of a run without a reset, and the rest of the run. -/
theorem noReset_succ {n : Nat} {s : State} (h : noReset (n + 1) s) : s.input.rst = false ∧ noReset n s.nextState :=
  ⟨h 0 n.succ_pos, fun k hk => h (k + 1) (Nat.succ_lt_succ hk)⟩

/-! ## Conservation (R59, R60) -/

/-- If in every cycle what is held, with what goes in behind it, is what comes out, with what is held next behind it, then
so it is over any run without a reset. What `into` gives goes in as its expansion under `e`. -/
theorem conservation {α β : Type} (held : State → List β) (into : State → Option α) (e : α → List β)
    (out : State → Option β)
    (hstep : ∀ s : State, s.cfg.legal = true → s.input.rst = false →
      held s ++ (into s).toList.flatMap e = (out s).toList ++ held s.nextState)
    {n : Nat} {s : State} (hl : s.cfg.legal = true) (hr : noReset n s) :
    held s ++ (collect into n s).flatMap e = collect out n s ++ held (after n s) := by
  induction n generalizing s with
  | zero => simp [collect]
  | succ n ih =>
    obtain ⟨hr0, hr'⟩ := noReset_succ hr
    rw [collect, collect, List.flatMap_append, ← List.append_assoc, hstep s hl hr0, List.append_assoc,
      ih (nextState_legal hl) hr', List.append_assoc, after_succ]

/-- One cycle of the queue: the head comes out, the pushed symbol goes in (R150). -/
theorem queue_step {s : State} (hl : s.cfg.legal = true) (hr : s.input.rst = false) :
    s.q ++ s.pushNow.toList = s.popNow.toList ++ s.nextState.q := by
  rw [nextState_cycled s hl hr, cycled_q hr]
  cases hpop : s.popNow with
  | none => rfl
  | some x =>
    have hq : s.q = x :: s.q.tail := List.eq_cons_of_mem_head? (popNow_some hpop)
    simp [← List.append_assoc, ← hq]

/-- What was queued and is pushed is what is popped and is left. -/
theorem queue_run {s : State} {n : Nat} (hl : s.cfg.legal = true) (hr : noReset n s) :
    s.q ++ pushed n s = popped n s ++ (after n s).q := by
  have h := conservation State.q State.pushNow (fun x => [x]) State.popNow
    (fun s hl hr => by rw [List.flatMap_singleton', queue_step hl hr]) hl hr
  rwa [List.flatMap_singleton'] at h

/-- Settles O47: the queue is conserved in every cycle, and an empty one holds nothing that could come out first. -/
theorem queueDeliversExactlyOnceInOrder : Obligations.QueueDeliversExactlyOnceInOrder := by
  intro s n hl hr
  have hrun := queue_run hl hr
  refine ⟨hrun, fun hq => ⟨(after n s).q, ?_⟩⟩
  rw [← hrun, hq, List.nil_append]

/-- One cycle of the sequencer: a pushed symbol comes out, an accepted byte's expansion goes in (R145, R147). -/
theorem sequencer_step {s : State} (hl : s.cfg.legal = true) (hr : s.input.rst = false) :
    s.seq ++ s.acceptNow.toList.flatMap enc = s.pushNow.toList ++ s.nextState.seq := by
  obtain ⟨-, -, hseq, -⟩ := cycled_ingest s
  rw [nextState_cycled s hl hr, hseq]
  obtain ⟨hsame, hpush, hacc⟩ | ⟨g, -, -, hgrant, hpush, hacc⟩ | ⟨p, -, hs, hingest, hpush, hacc⟩ |
    ⟨p, x, rest, -, hs, hdrop, hpush, hacc⟩ := ingest_cases hr
  · simp [hsame, hpush, hacc]
  · simp [hgrant, hpush, hacc]
  · simp [hingest, accept_seq hs, hs, hpush, hacc]
  · simp [hdrop, hs, hpush, hacc]

/-- Settles O48: the sequencer is conserved in every cycle. -/
theorem pushedSymbolsAreTheEncodedBytes : Obligations.PushedSymbolsAreTheEncodedBytes :=
  fun _ _ hl hr => conservation State.seq State.acceptNow enc State.pushNow (fun _ => sequencer_step) hl hr

/-! ## Messages (R153) -/

/-- The cycle in which the lock is released leaves the sequencer empty. -/
theorem seq_empty_at_release {s : State} {p : Nat} (hl : s.cfg.legal = true) (hr : s.input.rst = false)
    (ho : s.owner = some p) (hfree : s.nextState.owner = none) : s.nextState.seq = [] := by
  obtain ⟨-, -, hrelease⟩ := lockPassesOnlyThroughFree s s.nextState (step_eq_nextState hl) hr
  obtain ⟨hseq, -⟩ := hrelease p ho hfree
  exact hseq

/-- A byte that is transferred while `p` holds the lock is the one on `p`'s port. -/
theorem acceptNow_port {s : State} {p : Nat} {b : Byte} (ho : s.owner = some p) (h : s.acceptNow = some b) :
    (s.port p).valid = true ∧ (s.port p).byte = b := by
  rw [acceptNow_of_owner ho] at h
  split at h
  · next ht => exact ⟨((s.transfers_iff p).1 ht).1, Option.some.inj h⟩
  · cases h

/-- Producer `p` holds the lock in each of `n` cycles without a reset, and after these it is free. -/
structure HoldsUntilRelease (p n : Nat) (s : State) : Prop where
  legal   : s.cfg.legal = true
  noReset : noReset n s
  held    : ∀ k, k < n → (after k s).owner = some p
  free    : (after n s).owner = none

/-- The next cycle is in the same hold. -/
theorem HoldsUntilRelease.next {p n : Nat} {s : State} (h : HoldsUntilRelease p (n + 1) s) :
    HoldsUntilRelease p n s.nextState :=
  ⟨nextState_legal h.legal, (noReset_succ h.noReset).2, fun k hk => h.held (k + 1) (Nat.succ_lt_succ hk), h.free⟩

/-- Where the lock is free, the hold is over. -/
theorem HoldsUntilRelease.eq_zero {p n : Nat} {s : State} (h : HoldsUntilRelease p n s) (hfree : s.owner = none) :
    n = 0 := by
  by_contra hn
  exact (nomatch hfree.symm.trans (h.held 0 (Nat.pos_of_ne_zero hn)))

/-- Where the lock is held, the hold is not over. -/
theorem HoldsUntilRelease.exists_succ {p n : Nat} {s : State} (h : HoldsUntilRelease p n s) (ho : s.owner = some p) :
    ∃ m, n = m + 1 := by
  cases n with
  | zero => exact (nomatch ho.symm.trans h.free)
  | succ m => exact ⟨m, rfl⟩

/-- In a cycle without a reset, the next state has the lock and the sequencer that the ingest unit leaves. -/
theorem nextState_ingest {s : State} (hl : s.cfg.legal = true) (hr : s.input.rst = false) :
    s.nextState.owner = s.ingested.owner ∧ s.nextState.seq = s.ingested.seq
      ∧ s.nextState.seqLast = s.ingested.seqLast := by
  obtain ⟨howner, -, hseq, hlast⟩ := cycled_ingest s
  rw [nextState_cycled s hl hr]
  exact ⟨howner, hseq, hlast⟩

/-- No byte with `in_last` has been accepted yet: the sequencer is empty, or holds symbols of another byte. -/
def State.MessageOpen (s : State) : Prop := s.seq = [] ∨ s.seqLast = false

/-- The byte with `in_last` has been accepted, and not all of its symbols are pushed. -/
def State.MessageClosing (s : State) : Prop := s.seq ≠ [] ∧ s.seqLast = true

/-- A closing message is closing in the next cycle too, or it has released the lock. -/
theorem closing_next {s : State} {p : Nat} (hl : s.cfg.legal = true) (hr : s.input.rst = false)
    (ho : s.owner = some p) (hclosing : s.MessageClosing) :
    s.nextState.owner = none ∨ s.nextState.MessageClosing := by
  obtain ⟨hs, hlast⟩ := hclosing
  obtain ⟨howner, hseq, hlast'⟩ := nextState_ingest hl hr
  rw [State.MessageClosing, howner, hseq, hlast', ingested_busy s p ho hs]
  split
  · by_cases htail : s.seq.tail = []
    · exact .inl (if_pos ⟨htail, hlast⟩)
    · exact .inr ⟨htail, hlast⟩
  · exact .inr ⟨hs, hlast⟩

/-- With a byte that carries `in_last`, the message is closing or has released the lock. -/
theorem final_next {s : State} {p : Nat} (hl : s.cfg.legal = true) (hr : s.input.rst = false)
    (ho : s.owner = some p) (hacc : s.acceptNow ≠ none) (hfinal : (s.port p).last = true) :
    s.nextState.owner = none ∨ s.nextState.MessageClosing := by
  obtain ⟨howner, hseq, hlast⟩ := nextState_ingest hl hr
  rw [State.MessageClosing, howner, hseq, hlast]
  obtain ⟨-, -, hnone⟩ | ⟨-, -, -, -, -, hnone⟩ | ⟨p', ho', -, hingest, -⟩ | ⟨-, -, -, -, -, -, -, hnone⟩ :=
    ingest_cases hr
  · exact absurd hnone hacc
  · exact absurd hnone hacc
  · cases ho.symm.trans ho'
    rw [hingest, State.accept, hfinal]
    split
    · exact .inl rfl
    · next hrel => exact .inr ⟨fun henc => hrel ⟨henc, rfl⟩, rfl⟩
  · exact absurd hnone hacc

/-- Without such a byte, an open message stays open, and keeps the lock. -/
theorem open_next {s : State} {p : Nat} (hl : s.cfg.legal = true) (hr : s.input.rst = false)
    (ho : s.owner = some p) (hopen : s.MessageOpen) (hacc : s.acceptNow ≠ none → (s.port p).last = false) :
    s.nextState.owner = some p ∧ s.nextState.MessageOpen := by
  obtain ⟨howner, hseq, hlast⟩ := nextState_ingest hl hr
  rw [State.MessageOpen, howner, hseq, hlast]
  obtain ⟨hsame, -⟩ | ⟨-, hfree, -⟩ | ⟨p', ho', -, hingest, -, hbyte⟩ | ⟨p', x, rest, -, hs, hdrop, -⟩ :=
    ingest_cases hr
  · rw [hsame]
    exact ⟨ho, hopen⟩
  · exact (nomatch hfree.symm.trans ho)
  · cases ho.symm.trans ho'
    rw [hingest, hacc (by simp [hbyte]), State.accept, if_neg (by simp)]
    exact ⟨ho, .inr rfl⟩
  · have hnotLast : s.seqLast = false := hopen.resolve_left (by simp [hs])
    rw [hdrop, State.dropSeq_owner, if_neg (by simp [hnotLast])]
    exact ⟨ho, .inr hnotLast⟩

/-- While a message is closing, no byte is accepted until the release. -/
theorem acceptNow_of_closing {p n : Nat} {s : State} (h : HoldsUntilRelease p n s) (hclosing : s.MessageClosing) {k : Nat}
    (hk : k < n) : (after k s).acceptNow = none := by
  induction n generalizing s k with
  | zero => exact absurd hk k.not_lt_zero
  | succ n ih =>
    cases k with
    | zero => exact acceptNow_of_busy hclosing.1
    | succ k =>
      have hk' : k < n := Nat.lt_of_succ_lt_succ hk
      obtain hfree | hclosing' := closing_next h.legal (noReset_succ h.noReset).1 (h.held 0 n.succ_pos) hclosing
      · rw [h.next.eq_zero hfree] at hk'
        exact absurd hk' k.not_lt_zero
      · exact ih h.next hclosing' hk'

/-- In cycle `k` of `n`, and in none after it, a byte is accepted, and it alone carries `in_last`. -/
def FinalByteAt (p n : Nat) (s : State) (k : Nat) : Prop :=
  k < n ∧ (after k s).acceptNow ≠ none ∧ ((after k s).port p).last = true ∧
    ∀ j, j < n → j ≠ k → (after j s).acceptNow ≠ none → j < k ∧ ((after j s).port p).last = false

/-- Before the lock is released, an open message accepts its final byte, and no byte after that. -/
theorem exists_finalByte {p n : Nat} {s : State} (h : HoldsUntilRelease p n s) (ho : s.owner = some p)
    (hopen : s.MessageOpen) : ∃ k, FinalByteAt p n s k := by
  induction n generalizing s with
  | zero => exact (nomatch ho.symm.trans h.free)
  | succ n ih =>
    obtain ⟨hr, -⟩ := noReset_succ h.noReset
    by_cases hfinal : s.acceptNow ≠ none ∧ (s.port p).last = true
    · refine ⟨0, n.succ_pos, hfinal.1, hfinal.2, fun j hj hne hacc => absurd ?_ hacc⟩
      obtain ⟨i, rfl⟩ := Nat.exists_eq_succ_of_ne_zero hne
      have hi : i < n := Nat.lt_of_succ_lt_succ hj
      obtain hfree | hclosing := final_next h.legal hr ho hfinal.1 hfinal.2
      · rw [h.next.eq_zero hfree] at hi
        exact absurd hi i.not_lt_zero
      · exact acceptNow_of_closing h.next hclosing hi
    · have hnotFinal : s.acceptNow ≠ none → (s.port p).last = false := by simpa using hfinal
      obtain ⟨ho', hopen'⟩ := open_next h.legal hr ho hopen hnotFinal
      obtain ⟨k, hk, hacc, hlast, honly⟩ := ih h.next ho' hopen'
      refine ⟨k + 1, Nat.succ_lt_succ hk, hacc, hlast, fun j hj hne hj' => ?_⟩
      cases j with
      | zero => exact ⟨k.succ_pos, hnotFinal hj'⟩
      | succ j =>
        obtain ⟨hlt, hlast'⟩ := honly j (Nat.lt_of_succ_lt_succ hj) (fun h => hne (congrArg _ h)) hj'
        exact ⟨Nat.succ_lt_succ hlt, hlast'⟩

/-- From a grant to the release, the symbols pushed are the expansions of the bytes accepted. -/
theorem pushed_message {p n : Nat} {s : State} (h : HoldsUntilRelease p n s) (ho : s.owner = some p)
    (hs : s.seq = []) : pushed n s = (accepted n s).flatMap enc := by
  obtain ⟨m, rfl⟩ := h.exists_succ ho
  have hlegal : (after m s).cfg.legal = true := by rw [after_cfg, h.legal]
  have hempty : (after (m + 1) s).seq = [] := by
    have hfree := h.free
    rw [after_succ'] at hfree ⊢
    exact seq_empty_at_release hlegal (h.noReset m m.lt_succ_self) (h.held m m.lt_succ_self) hfree
  have hrun := pushedSymbolsAreTheEncodedBytes s (m + 1) h.legal h.noReset
  rw [hs, hempty, List.nil_append, List.append_nil] at hrun
  exact hrun.symm

/-- Settles O49: the sequencer is empty at both ends of the hold, and the message is open until the byte that makes it
closing. -/
theorem messagesNeverInterleave : Obligations.MessagesNeverInterleave := by
  refine ⟨fun s => nothing_of_free, fun s p n hl ho hs hr hheld hfree => ?_⟩
  have h : HoldsUntilRelease p n s := ⟨hl, hr, hheld, hfree⟩
  exact ⟨pushed_message h ho hs, fun k b hk hacc => acceptNow_port (hheld k hk) hacc,
    exists_finalByte h ho (.inl hs)⟩

/-! ## One byte without a pause (R236) -/

/-- With room in every cycle, the sequencer is emptied one symbol a cycle, and the lock is released with the last one
of a final byte. -/
theorem sequencer_drains {s : State} {p : Nat} {x : Sym} {rest : List Sym} (hl : s.cfg.legal = true)
    (hr : noReset (rest.length + 1) s) (ho : s.owner = some p) (hs : s.seq = x :: rest)
    (hroom : ∀ k, k < rest.length + 1 → (after k s).q.length < s.cfg.depth) :
    (∀ k, k < rest.length + 1 → (after k s).pushNow = (x :: rest)[k]?) ∧ (after (rest.length + 1) s).seq = [] ∧
      (after (rest.length + 1) s).owner = if s.seqLast = true then none else some p := by
  induction rest generalizing s x with
  | nil =>
    obtain ⟨hpush, t, hstep, hseq, -, -, howner, -⟩ :=
      sequencerPushesOneSymbolACycle s p x [] hl (noReset_succ hr).1 ho hs (hroom 0 Nat.one_pos)
    cases nextState_of_step hstep
    refine ⟨fun k hk => ?_, hseq, howner.trans (by simp)⟩
    cases Nat.lt_one_iff.1 hk
    exact hpush
  | cons y rest ih =>
    obtain ⟨hr0, hr'⟩ := noReset_succ hr
    obtain ⟨hpush, t, hstep, hseq, hlast, -, howner, -⟩ :=
      sequencerPushesOneSymbolACycle s p x (y :: rest) hl hr0 ho hs (hroom 0 (Nat.succ_pos _))
    cases nextState_of_step hstep
    rw [if_neg (by simp)] at howner
    obtain ⟨hpushes, hempty, hrelease⟩ := ih (nextState_legal hl) hr' howner hseq fun k hk => by
      rw [nextState_cfg]
      exact hroom (k + 1) (Nat.succ_lt_succ hk)
    refine ⟨fun k hk => ?_, hempty, by rw [← hlast]; exact hrelease⟩
    cases k with
    | zero => exact hpush
    | succ k => exact hpushes k (Nat.lt_of_succ_lt_succ hk)

/-- Settles O50: the transfer loads the expansion, which then drains; without symbols the transfer itself releases the
lock of a final byte. -/
theorem acceptedByteIsPushedWithoutPause : Obligations.AcceptedByteIsPushedWithoutPause := by
  intro s p hl ho ht hr hroom
  obtain ⟨hr0, hr'⟩ := noReset_succ hr
  obtain ⟨hv, -, -, hs⟩ := (s.transfers_iff p).1 ht
  obtain ⟨-, t, hstep, -, hloads, hreleases, -⟩ := transferLoadsTheEncodedByte s p hl hr0 ho hs
  cases nextState_of_step hstep
  cases henc : enc (s.port p).byte with
  | nil =>
    refine ⟨nofun, ?_⟩
    cases hlast : (s.port p).last with
    | true =>
      obtain ⟨howner, hseq, -⟩ := hreleases hv henc hlast
      exact ⟨hseq, howner⟩
    | false =>
      obtain ⟨howner, hseq, -⟩ := hloads hv (.inr hlast)
      exact ⟨hseq.trans henc, howner⟩
  | cons x rest =>
    obtain ⟨howner, hseq, hlast⟩ := hloads hv (.inl (by simp [henc]))
    rw [henc] at hseq hr' hroom
    obtain ⟨hpushes, hempty, hrelease⟩ := sequencer_drains (nextState_legal hl) hr' howner hseq fun k hk => by
      rw [nextState_cfg]
      exact hroom (k + 1) (Nat.le_add_left 1 k) hk
    exact ⟨hpushes, hempty, by rw [← hlast]; exact hrelease⟩

end Sys2Proof.Machine
end

section
/-! Runs of the Flasher: the time to the next pop, which every cycle brings one cycle nearer, gives the bound on a wait (R214)
and the absence of drift (R186); the gaps on the wire (R192) are waveforms of single symbols, one after another. -/

namespace Sys2Proof.Machine

/-! ## The time to the next pop -/

/-- In how many cycles the Flasher may take a symbol: at once in IDLE, and from GAP at its deadline; from HOLD the gap comes
before that. -/
def State.toNext (s : State) : Nat :=
  match s.fstate with
  | .idle => 0
  | .hold => s.remaining + d2 s.cfg
  | .gap  => s.remaining

theorem toNext_idle {s : State} (h : s.fstate = .idle) : s.toNext = 0 := by simp [State.toNext, h]

theorem toNext_hold {s : State} (h : s.fstate = .hold) : s.toNext = s.remaining + d2 s.cfg := by
  simp [State.toNext, h]

theorem toNext_gap {s : State} (h : s.fstate = .gap) : s.toNext = s.remaining := by simp [State.toNext, h]

/-- The Flasher may take a symbol exactly when no cycle is left. -/
theorem mayPop_iff {s : State} (hinv : s.Inv) : s.mayPop = true ↔ s.toNext = 0 := by
  cases hf : s.fstate with
  | idle => simp [mayPop_idle s hf, toNext_idle hf]
  | hold =>
    obtain ⟨-, hunit, -⟩ := legal_bounds hinv.legal
    simp only [mayPop_hold s hf, toNext_hold hf, d2, Bool.false_eq_true, false_iff]
    omega
  | gap => rw [(mayPop_gap s hf).1, toNext_gap hf, (hinv.deadlineIn (by simp [hf])).dl_iff]

/-- Less than four units are left. -/
theorem toNext_lt {s : State} (hinv : s.Inv) : s.toNext < 4 * s.cfg.unitTicks := by
  obtain ⟨-, hunit, -⟩ := legal_bounds hinv.legal
  have hdeadline := hinv.deadline
  cases hf : s.fstate with
  | idle =>
    rw [toNext_idle hf]
    omega
  | hold =>
    have := hdeadline (by simp [hf])
    rw [toNext_hold hf, d2]
    omega
  | gap =>
    have := hdeadline (by simp [hf])
    rw [toNext_gap hf]
    omega

/-- A popped symbol takes its period. -/
theorem toNext_of_pop {s : State} {x : Sym} (hinv : s.Inv) (hpop : s.popNow = some x) :
    s.nextState.toNext + 1 = period s.cfg x := by
  obtain ⟨hf, hd⟩ := deadlineIn_of_pop hinv hpop
  obtain ⟨-, hunit, -⟩ := legal_bounds hinv.legal
  obtain ⟨hmin, -⟩ := d1_bounds s.cfg x
  rw [toNext_hold hf, hd.ahead, nextState_cfg, period]
  omega

/-- While the Flasher may not take a symbol, every cycle brings the next pop one cycle nearer. -/
theorem toNext_of_wait {s : State} (hinv : s.Inv) (hr : s.input.rst = false) (hm : s.mayPop = false) :
    s.nextState.toNext + 1 = s.toNext := by
  obtain ⟨x, hpop⟩ | ⟨-, -, hm'⟩ | hwait | hend | ⟨-, hm', -⟩ := flasher_cases hr
  · simp [popNow_of_not_mayPop hm] at hpop
  · simp [hm] at hm'
  · obtain ⟨hfstate, hd, hpos⟩ := deadlineIn_of_wait hinv hr hwait
    cases hf : s.fstate with
    | idle => exact absurd hf hwait.1
    | hold =>
      rw [toNext_hold (hfstate.trans hf), toNext_hold hf, hd.ahead, nextState_cfg]
      omega
    | gap =>
      rw [toNext_gap (hfstate.trans hf), toNext_gap hf, hd.ahead]
      omega
  · obtain ⟨hgap, hd⟩ := deadlineIn_of_endHold hinv hr hend
    obtain ⟨-, hunit, -⟩ := legal_bounds hinv.legal
    obtain ⟨hf, hdl, -⟩ := hend
    have hontime := (hinv.deadlineIn (by simp [hf])).dl_iff.1 hdl
    rw [toNext_gap hgap, toNext_hold hf, hd.ahead, hontime, d2]
    omega
  · simp [hm] at hm'

/-! ## The bound on a wait (R214) -/

/-- A cycle without a pop leaves the head of a queue that holds one. -/
theorem head_of_wait {s : State} (hl : s.cfg.legal = true) (hr : s.input.rst = false) (hq : s.q ≠ [])
    (hpop : s.popNow = none) : s.nextState.q.head? = s.q.head? := by
  have hstep := queue_step hl hr
  rw [hpop, Option.toList_none, List.nil_append] at hstep
  rw [← hstep, List.head?_append_of_ne_nil _ hq]

/-- The head of the queue is popped when the time to the next pop is over. -/
theorem popNow_at_toNext {s : State} {k : Nat} (hinv : s.Inv) (hq : s.q ≠ []) (hr : noReset (k + 1) s)
    (hk : s.toNext = k) : (after k s).popNow = s.q.head? := by
  induction k generalizing s with
  | zero => exact popNow_of_mayPop (hr 0 Nat.one_pos) ((mayPop_iff hinv).2 hk)
  | succ k ih =>
    obtain ⟨hr0, hr'⟩ := noReset_succ hr
    have hm : s.mayPop = false := by simp [← Bool.not_eq_true, mayPop_iff hinv, hk]
    have hwait := toNext_of_wait hinv hr0 hm
    have hhead := head_of_wait hinv.legal hr0 hq (popNow_of_not_mayPop hm)
    rw [after_succ, ← hhead]
    refine ih (after_inv hinv 1) (fun hnil => ?_) hr' (by omega)
    rw [hnil] at hhead
    exact hq (List.head?_eq_none_iff.1 hhead.symm)

/-- Settles O54: the head is popped when the time to the next pop is over, which is less than four units. -/
theorem nonEmptyQueueIsPoppedInTime : Obligations.NonEmptyQueueIsPoppedInTime := by
  intro s hinv hq hr
  have hlt := toNext_lt hinv
  exact ⟨s.toNext, hlt, popNow_at_toNext hinv hq (noReset_mono hr hlt) rfl⟩

/-! ## No drift (R186) -/

/-- Where no symbol is popped and the Flasher neither is nor goes to IDLE, it may not take one. -/
theorem not_mayPop_of_busy {s : State} (hl : s.cfg.legal = true) (hr : s.input.rst = false) (hpop : s.popNow = none)
    (hf : s.fstate ≠ .idle) (hnext : s.nextState.fstate ≠ .idle) : s.mayPop = false := by
  obtain ⟨-, hfstate, -⟩ := nextState_flasher hl hr
  obtain ⟨x, hpop'⟩ | ⟨hidle, -⟩ | ⟨-, hdl, -⟩ | ⟨hhold, -⟩ | ⟨-, -, hflash⟩ := flasher_cases hr
  · exact (nomatch hpop.symm.trans hpop')
  · exact absurd hidle hf
  · exact mayPop_early hf hdl
  · exact mayPop_hold s hhold
  · rw [hfstate, hflash] at hnext
    exact absurd rfl hnext

/-- A cycle that does not lead to IDLE takes one cycle off the time to the next pop, after adding the period of the symbol
that it pops. -/
theorem toNext_step {s : State} (hinv : s.Inv) (hr : s.input.rst = false) (hbusy : s.popNow ≠ none ∨ s.fstate ≠ .idle)
    (hnext : s.nextState.fstate ≠ .idle) :
    s.nextState.toNext + 1 = s.toNext + periods s.cfg s.popNow.toList := by
  cases hpop : s.popNow with
  | some x =>
    obtain ⟨-, hm⟩ := noReset_and_mayPop_of_popNow hpop
    rw [toNext_of_pop hinv hpop, (mayPop_iff hinv).1 hm]
    simp [periods]
  | none =>
    have hf : s.fstate ≠ .idle := hbusy.resolve_left (by simp [hpop])
    rw [toNext_of_wait hinv hr (not_mayPop_of_busy hinv.legal hr hpop hf hnext)]
    rfl

theorem periods_append (c : Config) (xs ys : List Sym) : periods c (xs ++ ys) = periods c xs + periods c ys := by
  simp [periods]

/-- In a continuous stream, the cycles gone by and the time to the next pop are the periods of the symbols popped. -/
theorem toNext_run {s : State} {n : Nat} (hinv : s.Inv) (hpop : s.popNow ≠ none) (hr : noReset n s)
    (hbusy : ∀ k, 1 ≤ k → k ≤ n → (after k s).fstate ≠ .idle) :
    n + (after n s).toNext = periods s.cfg (popped n s) := by
  induction n with
  | zero =>
    obtain ⟨x, hx⟩ := Option.ne_none_iff_exists'.1 hpop
    obtain ⟨-, hm⟩ := noReset_and_mayPop_of_popNow hx
    rw [after_zero, (mayPop_iff hinv).1 hm]
    rfl
  | succ n ih =>
    have hrun := ih (noReset_mono hr n.le_succ) fun k h1 hk => hbusy k h1 (Nat.le_succ_of_le hk)
    have hbusy' : (after n s).popNow ≠ none ∨ (after n s).fstate ≠ .idle := by
      cases n with
      | zero => exact .inl hpop
      | succ n => exact .inr (hbusy (n + 1) (Nat.succ_pos n) (Nat.le_succ _))
    have hnext := hbusy (n + 1) (Nat.succ_pos n) le_rfl
    rw [after_succ'] at hnext ⊢
    have hstep := toNext_step (after_inv hinv n) (hr n n.lt_succ_self) hbusy' hnext
    rw [after_cfg] at hstep
    rw [popped, collect_succ', periods_append, ← popped, ← hrun]
    omega

/-- Settles O52: where the Flasher may take a symbol, the time to the next pop is over. -/
theorem continuousStreamDoesNotDrift : Obligations.ContinuousStreamDoesNotDrift := by
  intro s n hinv hpop hr _ hbusy hm
  have hrun := toNext_run hinv hpop hr hbusy
  rwa [(mayPop_iff (after_inv hinv n)).1 hm, Nat.add_zero] at hrun

/-! ## The gaps on the wire (R192) -/

/-- The pin over the period of one symbol: its own level for `d1` cycles, then low for `d2` cycles. -/
theorem pin_of_pop {s : State} {x : Sym} (hinv : s.Inv) (hpop : s.popNow = some x)
    (hr : noReset (period s.cfg x + 1) s) :
    (∀ k, 1 ≤ k → k ≤ d1 s.cfg x → (after k s).pin = x.isPulse) ∧
      ∀ k, d1 s.cfg x < k → k ≤ period s.cfg x → (after k s).pin = false := by
  obtain ⟨hhold, hgap, -⟩ := symbolHasItsWaveform s x hinv hpop hr
  refine ⟨fun k h1 hk => ?_, fun k h1 hk => ?_⟩
  · obtain ⟨-, hpin, -⟩ := hhold k h1 hk
    exact hpin
  · obtain ⟨-, hpin, -⟩ := hgap k h1 hk
    exact hpin

/-- A run in which no cycle gives anything collects nothing. -/
theorem collect_eq_nil {α : Type} {f : State → Option α} {n : Nat} {s : State}
    (h : ∀ k, k < n → f (after k s) = none) : collect f n s = [] := by
  induction n with
  | zero => rfl
  | succ n ih => rw [collect_succ', ih fun k hk => h k (Nat.lt_succ_of_lt hk), h n n.lt_succ_self]; rfl

/-- A popped symbol is the only one popped during its period. -/
theorem popped_period {s : State} {x : Sym} (hinv : s.Inv) (hpop : s.popNow = some x)
    (hr : noReset (period s.cfg x + 1) s) : popped (period s.cfg x) s = [x] := by
  obtain ⟨hhold, hgap, -⟩ := symbolHasItsWaveform s x hinv hpop hr
  have hnone : ∀ k, 1 ≤ k → k < period s.cfg x → (after k s).popNow = none := by
    intro k h1 hk
    by_cases hphase : k ≤ d1 s.cfg x
    · obtain ⟨-, -, hnone, -⟩ := hhold k h1 hphase
      exact hnone
    · obtain ⟨-, -, hnone, -⟩ := hgap k (by omega) hk.le
      exact hnone hk
  have hperiod := toNext_of_pop hinv hpop
  rw [← hperiod] at hnone ⊢
  rw [popped, collect, hpop, collect_eq_nil fun k hk => hnone (k + 1) (Nat.le_add_left 1 k) (Nat.succ_lt_succ hk)]
  rfl

/-- The symbol behind a popped one is popped after exactly one period. -/
theorem next_pop {s : State} {x y : Sym} {rest : List Sym} (hinv : s.Inv) (hpop : s.popNow = some x)
    (hq : s.q = x :: y :: rest) (hr : noReset (period s.cfg x + 1) s) :
    (after (period s.cfg x) s).popNow = some y
      ∧ ∃ later, (after (period s.cfg x) s).q = y :: (rest ++ later) := by
  obtain ⟨-, -, hhead, -⟩ := symbolHasItsWaveform s x hinv hpop hr
  have hrun := queue_run hinv.legal (noReset_mono hr (Nat.le_succ _))
  rw [hq, popped_period hinv hpop hr] at hrun
  have hqueue : (after (period s.cfg x) s).q = y :: (rest ++ pushed (period s.cfg x) s) := by
    simpa using hrun.symm
  exact ⟨hhead.trans (by rw [← period, hqueue, List.head?_cons]), _, hqueue⟩

/-- After the first phase of a symbol, the pin stays low over all symbols that are no pulse, up to the next pulse. -/
theorem low_until_pulse {s : State} {x y : Sym} {mid rest : List Sym} (hinv : s.Inv) (hpop : s.popNow = some x)
    (hq : s.q = x :: (mid ++ y :: rest)) (hmid : ∀ g ∈ mid, g.isPulse = false)
    (hr : noReset (period s.cfg x + periods s.cfg mid + 1) s) :
    (∀ k, d1 s.cfg x < k → k ≤ period s.cfg x + periods s.cfg mid → (after k s).pin = false) ∧
      (after (period s.cfg x + periods s.cfg mid + 1) s).pin = y.isPulse := by
  induction mid generalizing s x rest with
  | nil =>
    obtain ⟨hy, -⟩ := next_pop hinv hpop hq hr
    obtain ⟨-, hlow⟩ := pin_of_pop hinv hpop hr
    obtain ⟨hry, -⟩ := noReset_and_mayPop_of_popNow hy
    obtain ⟨-, -, hpin⟩ := nextState_flasher (after_inv hinv _).legal hry
    rw [flashed_pop _ _ hy, ← after_succ'] at hpin
    exact ⟨hlow, hpin⟩
  | cons g mid ih =>
    have hsum : periods s.cfg (g :: mid) = period s.cfg g + periods s.cfg mid := by simp [periods]
    rw [hsum] at hr ⊢
    rw [List.cons_append] at hq
    have hr1 : noReset (period s.cfg x + 1) s := noReset_mono hr (by omega)
    obtain ⟨hg, later, hq'⟩ := next_pop hinv hpop hq hr1
    obtain ⟨-, hlow⟩ := pin_of_pop hinv hpop hr1
    have hinv' := after_inv hinv (period s.cfg x)
    have hcfg := after_cfg (period s.cfg x) s
    have hr' : noReset (period s.cfg g + periods s.cfg mid + 1) (after (period s.cfg x) s) :=
      noReset_after (noReset_mono hr (by omega))
    obtain ⟨hfirst, -⟩ := pin_of_pop hinv' hg (by rw [hcfg]; exact noReset_mono hr' (by omega))
    rw [List.append_assoc, List.cons_append] at hq'
    obtain ⟨hlater, hpulse⟩ := ih hinv' hg hq' (fun g' h => hmid g' (List.mem_cons_of_mem _ h)) (by rwa [hcfg])
    rw [hcfg] at hfirst hlater hpulse
    refine ⟨fun k h1 hk => ?_, by rw [Nat.add_assoc, Nat.add_assoc, after_add, ← Nat.add_assoc]; exact hpulse⟩
    by_cases hperiod : k ≤ period s.cfg x
    · exact hlow k h1 hperiod
    obtain ⟨j, rfl⟩ : ∃ j, k = period s.cfg x + j := ⟨k - period s.cfg x, by omega⟩
    rw [after_add]
    by_cases hphase : j ≤ d1 s.cfg g
    · rw [hfirst j (by omega) hphase, hmid g List.mem_cons_self]
    · exact hlater j (by omega) (by omega)

/-- Nothing, or an EOC and `m` spaces: no pulses, which with the pulse's own gap last 1 or `3 + 4 * m` units. -/
theorem mid_periods {mid : List Sym} {low : Nat} (c : Config)
    (h : (mid = [] ∧ low = 1) ∨ ∃ m, mid = .eoc :: List.replicate m .space ∧ low = 3 + 4 * m) :
    (∀ g ∈ mid, g.isPulse = false) ∧ d2 c + periods c mid = low * c.unitTicks := by
  obtain ⟨rfl, rfl⟩ | ⟨m, rfl, rfl⟩ := h
  · simp [periods, d2]
  · refine ⟨fun g hg => ?_, ?_⟩
    · obtain rfl | hg := List.mem_cons.1 hg
      · rfl
      · rw [List.eq_of_mem_replicate hg]
        rfl
    · have heoc : period c .eoc = c.unitTicks * 1 + c.unitTicks := rfl
      have hspace : period c .space = c.unitTicks * 3 + c.unitTicks := rfl
      simp only [periods, d2, List.map_cons, List.map_replicate, List.sum_cons, List.sum_replicate, smul_eq_mul, heoc,
        hspace]
      ring

/-- Settles O53: the pulse's first phase is high, and the pin is then low up to the next pulse. -/
theorem gapsOnTheWire : Obligations.GapsOnTheWire := by
  intro s x y mid rest low hinv hpop hx hy hq hmid hr
  obtain ⟨hnoPulse, hunits⟩ := mid_periods s.cfg hmid
  have hend : d1 s.cfg x + low * s.cfg.unitTicks = period s.cfg x + periods s.cfg mid := by
    rw [← hunits, period, Nat.add_assoc]
  rw [hend] at hr ⊢
  obtain ⟨hhigh, -⟩ := pin_of_pop hinv hpop (noReset_mono hr (by omega))
  obtain ⟨hlow, hnext⟩ := low_until_pulse hinv hpop hq hnoPulse hr
  exact ⟨fun k h1 hk => (hhigh k h1 hk).trans hx, hlow, hnext.trans hy⟩

end Sys2Proof.Machine
end

section
/-! What no output depends on: the absolute time (R22), the cursor in IDLE (R23, R187), and `seq_last` while the sequencer is
empty (R30). Each is a simulation between two states that differ in that element; one cycle of it is read off the
transcription of R37, in which the two units read only what they name. -/

namespace Sys2Proof.Machine

/-! ## Simulation -/

/-- If two related states have the same outputs, and one cycle makes them equal or leaves them related, then no output of
any later cycle tells them apart. -/
theorem outputs_after_of_simulation {R : State → State → Prop} (hout : ∀ s t, R s t → t.outputs = s.outputs)
    (hstep : ∀ s t, R s t → t.nextState = s.nextState ∨ R s.nextState t.nextState) {s t : State} (h : R s t) (n : Nat) :
    (after n t).outputs = (after n s).outputs := by
  induction n generalizing s t with
  | zero => exact hout s t h
  | succ n ih =>
    rw [after_succ, after_succ]
    obtain heq | hrel := hstep s t h
    · rw [heq]
    · exact ih hrel

/-- With legal parameters the next state is that of R37. -/
theorem nextState_eq_stepR37 {s : State} (hl : s.cfg.legal = true) : s.nextState = stepR37 s :=
  nextState_of_step (stepIsTheSpecsNextStateFunction s hl)

/-! ## The absolute time (R22) -/

theorem reached_shift (w time now d : Nat) : reached w (wrap w (time + d)) (wrap w (now + d)) = reached w time now := by
  rw [reached, subMod_wrap, subMod_add_right, ← reached]

/-- Adding to a shifted number shifts the sum. -/
theorem shift_add (w a d b : Nat) : (wrap w (a + d) + b) % 2 ^ w = wrap w ((a + b) % 2 ^ w + d) := by
  simp [wrap, Nat.add_right_comm]

/-- The Flasher does the same in shifted time, with its cursor shifted. -/
theorem flasherR170_shiftTime (s : State) (d : Nat) :
    flasherR170 (s.shiftTime d) =
      { flasherR170 s with now := wrap s.cfg.timeWidth ((flasherR170 s).now + d) } := by
  unfold flasherR170 State.shiftTime
  cases hf : s.fstate with
  | idle => cases hq : s.q <;> simp [shift_add]
  | hold =>
    simp only [reached_shift]
    split <;> simp [shift_add]
  | gap =>
    simp only [reached_shift]
    split
    · cases hq : s.q <;> simp [shift_add]
    · rfl

/-- A cycle forgets the shift if it is a reset, and keeps it else. -/
theorem stepR37_shiftTime (s : State) (d : Nat) :
    stepR37 (s.shiftTime d) = if s.input.rst then stepR37 s else (stepR37 s).shiftTime d := by
  have hinput : (s.shiftTime d).input = s.input := rfl
  have hingest : ingestR141 (s.shiftTime d) = ingestR141 s := rfl
  have htime := shift_add s.cfg.timeWidth s.time d 1
  simp only [stepR37, hinput, hingest, flasherR170_shiftTime]
  cases s.input.rst <;> simp [State.shiftTime, htime]

/-- Settles O55: a shift of the time is kept by every cycle, up to a reset that forgets it. -/
theorem outputsDoNotDependOnAbsoluteTime : Obligations.OutputsDoNotDependOnAbsoluteTime := by
  intro s d n hl
  refine outputs_after_of_simulation (R := fun s t => s.cfg.legal = true ∧ t = s.shiftTime d) ?_ ?_ ⟨hl, rfl⟩ n
  · rintro s _ ⟨-, rfl⟩
    rfl
  · rintro s _ ⟨hl, rfl⟩
    have hl' : (s.shiftTime d).cfg.legal = true := hl
    rw [nextState_eq_stepR37 hl', stepR37_shiftTime, ← nextState_eq_stepR37 hl]
    split
    · exact .inl rfl
    · exact .inr ⟨nextState_legal hl, rfl⟩

/-! ## The cursor in IDLE (R23, R187) -/

/-- The state with another value of the cursor. -/
def State.withNow (s : State) (v : Nat) : State := { s with now := v }

/-- In IDLE the Flasher overwrites the cursor when it pops, and else stays in IDLE without reading it. -/
theorem flasherR170_withNow {s : State} (hf : s.fstate = .idle) (v : Nat) :
    flasherR170 (s.withNow v) = flasherR170 s ∨
      ((flasherR170 s).fstate = .idle ∧ flasherR170 (s.withNow v) = { flasherR170 s with now := v }) := by
  unfold flasherR170 State.withNow
  cases s.q <;> simp [hf]

/-- A cycle from IDLE overwrites the cursor, or stays in IDLE without reading it. -/
theorem stepR37_withNow {s : State} (hf : s.fstate = .idle) (v : Nat) :
    stepR37 (s.withNow v) = stepR37 s ∨
      ((stepR37 s).fstate = .idle ∧ stepR37 (s.withNow v) = (stepR37 s).withNow v) := by
  have hinput : (s.withNow v).input = s.input := rfl
  have hingest : ingestR141 (s.withNow v) = ingestR141 s := rfl
  simp only [stepR37, hinput, hingest]
  cases s.input.rst with
  | true => exact .inl rfl
  | false =>
    obtain heq | ⟨hidle, hnow⟩ := flasherR170_withNow hf v
    · rw [heq]
      exact .inl rfl
    · rw [hnow]
      exact .inr ⟨hidle, rfl⟩

/-- Settles O56: while the Flasher stays in IDLE, the two states differ in the cursor only. -/
theorem cursorIsNotReadInIdle : Obligations.CursorIsNotReadInIdle := by
  intro s v n hl hf
  refine outputs_after_of_simulation (t := s.withNow v)
    (R := fun s t => s.cfg.legal = true ∧ s.fstate = .idle ∧ t = s.withNow v) ?_ ?_ ⟨hl, hf, rfl⟩ n
  · rintro s _ ⟨-, -, rfl⟩
    rfl
  · rintro s _ ⟨hl, hf, rfl⟩
    have hl' : (s.withNow v).cfg.legal = true := hl
    have hnext := nextState_legal hl
    rw [nextState_eq_stepR37 hl] at hnext ⊢
    rw [nextState_eq_stepR37 hl']
    exact (stepR37_withNow hf v).imp_right fun ⟨hidle, hnow⟩ => ⟨hnext, hidle, hnow⟩

/-! ## A stale `seq_last` (R30) -/

/-- The state with another value of `seq_last`. -/
def State.withSeqLast (s : State) (v : Bool) : State := { s with seqLast := v }

/-- With an empty sequencer the ingest unit overwrites `seq_last` with a byte's, and else keeps the sequencer empty without
reading it. -/
theorem ingestR141_withSeqLast {s : State} (hs : s.seq = []) (v : Bool) :
    ingestR141 (s.withSeqLast v) = ingestR141 s ∨
      ((ingestR141 s).seq = [] ∧ ingestR141 (s.withSeqLast v) = { ingestR141 s with seqLast := v }) := by
  have hinput : (s.withSeqLast v).input = s.input := rfl
  simp only [ingestR141, hinput]
  simp only [State.withSeqLast, hs, if_true]
  cases s.owner with
  | none =>
    refine .inr ?_
    cases rrFirst s.cfg.nProd s.rrLast fun p => (s.input.port p).req <;> exact ⟨rfl, rfl⟩
  | some p =>
    dsimp only
    split_ifs
    · exact .inr ⟨rfl, rfl⟩
    · exact .inl rfl
    · exact .inr ⟨rfl, rfl⟩

/-- A cycle from an empty sequencer overwrites `seq_last`, or leaves the sequencer empty without reading it. -/
theorem stepR37_withSeqLast {s : State} (hs : s.seq = []) (v : Bool) :
    stepR37 (s.withSeqLast v) = stepR37 s ∨
      ((stepR37 s).seq = [] ∧ stepR37 (s.withSeqLast v) = (stepR37 s).withSeqLast v) := by
  have hinput : (s.withSeqLast v).input = s.input := rfl
  have hflash : flasherR170 (s.withSeqLast v) = flasherR170 s := rfl
  simp only [stepR37, hinput, hflash]
  cases s.input.rst with
  | true => exact .inl rfl
  | false =>
    obtain heq | ⟨hempty, hlast⟩ := ingestR141_withSeqLast hs v
    · rw [heq]
      exact .inl rfl
    · rw [hlast]
      exact .inr ⟨hempty, rfl⟩

/-- Settles O57: while the sequencer stays empty, the two states differ in `seq_last` only. -/
theorem staleLastFlagIsNotRead : Obligations.StaleLastFlagIsNotRead := by
  intro s v n hl hs
  refine outputs_after_of_simulation (t := s.withSeqLast v)
    (R := fun s t => s.cfg.legal = true ∧ s.seq = [] ∧ t = s.withSeqLast v) ?_ ?_ ⟨hl, hs, rfl⟩ n
  · rintro s _ ⟨-, -, rfl⟩
    rfl
  · rintro s _ ⟨hl, hs, rfl⟩
    have hl' : (s.withSeqLast v).cfg.legal = true := hl
    have hnext := nextState_legal hl
    rw [nextState_eq_stepR37 hl] at hnext ⊢
    rw [nextState_eq_stepR37 hl']
    exact (stepR37_withSeqLast hs v).imp_right fun ⟨hempty, hlast⟩ => ⟨hnext, hempty, hlast⟩

end Sys2Proof.Machine
end
